-- ==== Sys2Proof/Word.lean ====
section
/-! DEFINITION. The word types of the LKB: bytes, the 40-bit command word (30_encoding R81) and the 20-bit
mapping word (30_encoding R90). -/

namespace Sys2Proof

/-- An 8-bit value: a colour channel, a keycode, a byte of the LED buffer. -/
abbrev Byte := BitVec 8

/-- A command word `cmd[39:0]` (30_encoding R81). -/
abbrev CmdWord := BitVec 40

/-- A mapping word `m[19:0]` (30_encoding R90). -/
abbrev MapWord := BitVec 20

/-- A layer number; `L = 4`, so two bits hold exactly the layers (30_encoding R93, 10_state R28). -/
abbrev LayerIx := BitVec 2

/-- The LKB decodes two kinds of word, both of fixed length (30_encoding R80). -/
inductive Word where
  | cmd (w : CmdWord)
  | map (m : MapWord)
deriving DecidableEq, Repr

end Sys2Proof
end

