-- ==== Sys2Proof/Config.lean ====
section
/-! DEFINITION. The configuration `CFG` of 00_scope R5: the type of the parameters, and the constants the spec fixes.
A `Config` is fixed before reset and constant for ever after; `State` carries the one the machine was built with. -/

namespace Sys2Proof

/-- The names of the three colour channels (00_scope R5, `WIRE_ORDER`). -/
inductive Channel where
  | r | g | b
deriving DecidableEq, Repr

/-- A colour in application order (00_scope R5 `LED_DEFAULT`; 30_encoding R84). -/
structure Rgb where
  r : Byte
  g : Byte
  b : Byte
deriving DecidableEq, Repr

/-- The open fields of `CFG` (00_scope R5). `KC_CAP` is 26 for this hardware and stays a field, as R5 writes its
rules for any capacity. `NCTL`, `L` and the nominal durations are below. -/
structure Config where
  /-- `N_KEYS`, the number of digital keys, 1 to 252. -/
  nKeys : Nat
  /-- `KC_CAP`, the keycode capacity, 1 to 255. -/
  kcCap : Nat
  /-- `N_LED`, the number of LEDs, 1 to 256. -/
  nLed : Nat
  /-- `BUDGET`, the power-budget ceiling. -/
  budget : Byte
  /-- `GAMMA`, 256 entries. -/
  gamma : List Byte
  /-- `WIRE_ORDER = (w0, w1, w2)`, a permutation of the channels. -/
  w0 : Channel
  w1 : Channel
  w2 : Channel
  /-- `LED_DEFAULT`, `N_LED` colours. -/
  ledDefault : List Rgb
  /-- `LAYERMAP[l][c]`, 4 rows of `NCTL` mapping words. -/
  layerMap : List (List MapWord)
  /-- `DIRMAP[l][d]`, 4 rows of 4 mapping words. -/
  dirMap : List (List MapWord)
  /-- `XC`, `YC`, the stick centres, signed. -/
  xc : BitVec 16
  yc : BitVec 16
  /-- `XDZ`, `YDZ`, the stick deadzones, unsigned. -/
  xdz : BitVec 15
  ydz : BitVec 15
deriving DecidableEq, Repr

/-- `L`, the number of layers. -/
abbrev numLayers : Nat := 4

/-- `NCTL = N_KEYS + 4` (10_state R22). -/
def Config.nCtl (c : Config) : Nat := c.nKeys + 4

/-- `ADC_BITS`: informative only, no rule reads it (00_scope R5). -/
def adcBits : Nat := 10

/-- `F_CLK`: open and informative only; no rule reads it (00_scope R5). Its value is not fixed here. -/
opaque fClkHz : Nat

/-- The three nominal durations, labels of segments of the wire trace. No rule reads a duration (70_reset R255). -/
inductive Duration where
  /-- `T_LONG`. -/
  | long
  /-- `T_SHORT`. -/
  | short
  /-- `T_RESET`, a minimum. -/
  | reset
deriving DecidableEq, Repr

/-- The nominal value of a duration in nanoseconds (00_scope R5: 750 ns, 275 ns, at least 300 µs). -/
def Duration.nominalNs : Duration → Nat
  | .long => 750
  | .short => 275
  | .reset => 300000

end Sys2Proof
end

