-- ==== Sys2Proof/Syntax.lean ====
section
/-! DEFINITION. The instructions: one constructor of `Instr` per row of spec/opcode_table.json. The five command words
come from the host (30_encoding R83); the nine mapping words stand in `LAYERMAP` and `DIRMAP` and are what the keymap
unit dispatches on (30_encoding R91). -/

namespace Sys2Proof

/-- The two lookup tables, selected by the `sel` field of `KLOOK` (30_encoding R86). -/
inductive Table where
  /-- `sel = 0`: `LAYERMAP`, indexed by a control. -/
  | layerMap
  /-- `sel = 1`: `DIRMAP`, indexed by a direction. -/
  | dirMap
deriving DecidableEq, Repr

/-- The four stick directions (10_state R22). -/
inductive Direction where
  | up | down | left | right
deriving DecidableEq, Repr

/-- The nine kinds of mapping word (30_encoding R91). -/
inductive Kind where
  | noop | key | cons | mouse | joybtn | mo | st | mode | trns
deriving DecidableEq, Repr

/-- The instructions of the LKB. -/
inductive Instr where
  /-- `LSET idx, r, g, b` (40_led_commands R110). -/
  | lset (idx r g b : Byte)
  /-- `LSHOW` (40_led_commands R120). -/
  | lshow
  /-- `KFRAME` (42_keymap_frame R170). -/
  | kframe
  /-- `FRAME` (42_keymap_frame R198). -/
  | frame
  /-- `KLOOK sel, ctl, layer` (41_keymap_lookup R146). -/
  | klook (sel : Table) (ctl : Byte) (layer : LayerIx)
  /-- `NOOP` (41_keymap_lookup R155). -/
  | noop
  /-- `KEY(kc)` (41_keymap_lookup R151). -/
  | key (kc : Byte)
  /-- `CONS(code)` (41_keymap_lookup R152). -/
  | cons (code : BitVec 16)
  /-- `MOUSE(b)` (41_keymap_lookup R153); `b = 3` is reserved. -/
  | mouse (b : BitVec 2)
  /-- `JOYBTN` (41_keymap_lookup R154). -/
  | joybtn
  /-- `MO(n)` (42_keymap_frame R182). -/
  | mo (n : LayerIx)
  /-- `ST(n)` (42_keymap_frame R183). -/
  | st (n : LayerIx)
  /-- `MODE(v)` (42_keymap_frame R181). -/
  | mode (v : BitVec 16)
  /-- `TRNS` (41_keymap_lookup R156). -/
  | trns
deriving DecidableEq, Repr

end Sys2Proof
end

