-- ==== Sys2Proof/WellFormed.lean ====
section
/-! DEFINITION. Well-formed instructions. Every field has exactly its encoded width, so the one check left is the
reserved mouse button (30_encoding R96). The check of a configuration, `WF_CONFIG`, is in Machine/ConfigWf.lean. -/

namespace Sys2Proof

/-- An instruction that some legal word encodes: `MOUSE(3)` is reserved (30_encoding R91, R96). -/
def Instr.wf : Instr → Bool
  | .lset _ _ _ _ => true
  | .lshow => true
  | .kframe => true
  | .frame => true
  | .klook _ _ _ => true
  | .noop => true
  | .key _ => true
  | .cons _ => true
  | .mouse b => b != 3
  | .joybtn => true
  | .mo _ => true
  | .st _ => true
  | .mode _ => true
  | .trns => true

end Sys2Proof
end

