-- ==== Sys2Proof/Decode.lean ====
section
/-! DEFINITION. Decoding of command words and mapping words, total, rejecting by name; then the encoder, and the
pseudo-forms of 30_encoding R102. -/

namespace Sys2Proof

/-- Why a word is not an instruction. -/
inductive DecodeError where
  /-- A reserved opcode: `0x00`, or `0x06` to `0xFF` (30_encoding R87). -/
  | reservedOpcode
  /-- A must-be-zero bit of the format is 1 (30_encoding R87, R96). -/
  | mustBeZero
  /-- A reserved mapping kind: `0x8` to `0xE` (30_encoding R96). -/
  | reservedKind
  /-- `MOUSE(3)` (30_encoding R96). -/
  | reservedButton
deriving DecidableEq, Repr

/-- `op = cmd[39:32]` (30_encoding R81). -/
def opcode (w : CmdWord) : Byte := w.extractLsb' 32 8

/-- `cmd[31:24]`: `idx` of `LSET`, `ctl` of `KLOOK`, and the low byte of the information word of event 7. -/
def bodyTop (w : CmdWord) : Byte := w.extractLsb' 24 8

/-- `kind(m) = m[19:16]` as a number (00_scope R10). -/
def kindBits (m : MapWord) : BitVec 4 := m.extractLsb' 16 4

/-- `arg(m) = m[15:0]` (00_scope R10). -/
def argBits (m : MapWord) : BitVec 16 := m.extractLsb' 0 16

/-- The low byte of the argument: `kc` of `KEY`. -/
def argByte (m : MapWord) : Byte := m.extractLsb' 0 8

/-- The two low bits of the argument: `b` of `MOUSE`, `n` of `MO` and `ST`. -/
def argTwo (m : MapWord) : BitVec 2 := m.extractLsb' 0 2

/-- The code of a mapping kind (30_encoding R91). -/
def Kind.code : Kind → BitVec 4
  | .noop => 0x0
  | .key => 0x1
  | .cons => 0x2
  | .mouse => 0x3
  | .joybtn => 0x4
  | .mo => 0x5
  | .st => 0x6
  | .mode => 0x7
  | .trns => 0xF

/-- The kind a code stands for; `0x8` to `0xE` are reserved (30_encoding R91). -/
def Kind.ofCode (k : BitVec 4) : Option Kind :=
  [Kind.noop, .key, .cons, .mouse, .joybtn, .mo, .st, .mode, .trns].find? (fun x => x.code == k)

/-- The kind of a mapping word, none where it is reserved. -/
def kindOf (m : MapWord) : Option Kind := Kind.ofCode (kindBits m)

/-- `i`, if the bits that its format fixes at zero are zero. -/
def ifZero (b : Bool) (i : Instr) : Except DecodeError Instr :=
  if b then .ok i else .error .mustBeZero

/-- `sel = cmd[16]` (30_encoding R86). -/
def selOf (b : Bool) : Table := if b then .dirMap else .layerMap

/-- Decode a command word (30_encoding R81 to R87). -/
def decodeCmd (w : CmdWord) : Except DecodeError Instr :=
  let body := w.extractLsb' 0 32
  if opcode w = 0x01 then
    .ok (.lset (bodyTop w) (w.extractLsb' 16 8) (w.extractLsb' 8 8) (w.extractLsb' 0 8))
  else if opcode w = 0x02 then ifZero (body == 0) .lshow
  else if opcode w = 0x03 then ifZero (body == 0) .kframe
  else if opcode w = 0x04 then ifZero (body == 0) .frame
  else if opcode w = 0x05 then
    ifZero (w.extractLsb' 17 7 == 0 && w.extractLsb' 2 14 == 0)
      (.klook (selOf (w.getLsbD 16)) (bodyTop w) (w.extractLsb' 0 2))
  else .error .reservedOpcode

/-- Decode a mapping word (30_encoding R90 to R96). -/
def decodeMap (m : MapWord) : Except DecodeError Instr :=
  match kindOf m with
  | some .noop => ifZero (argBits m == 0) .noop
  | some .key => ifZero (m.extractLsb' 8 8 == 0) (.key (argByte m))
  | some .cons => .ok (.cons (argBits m))
  | some .mouse =>
    if argTwo m = 3 then .error .reservedButton else ifZero (m.extractLsb' 2 14 == 0) (.mouse (argTwo m))
  | some .joybtn => ifZero (argBits m == 0) .joybtn
  | some .mo => ifZero (m.extractLsb' 2 14 == 0) (.mo (argTwo m))
  | some .st => ifZero (m.extractLsb' 2 14 == 0) (.st (argTwo m))
  | some .mode => .ok (.mode (argBits m))
  | some .trns => ifZero (argBits m == 0) .trns
  | none => .error .reservedKind

/-- Decode either kind of word (30_encoding R80). -/
def decode : Word → Except DecodeError Instr
  | .cmd w => decodeCmd w
  | .map m => decodeMap m

/-- A mapping word is legal (30_encoding R96) when it decodes. -/
def mapLegal (m : MapWord) : Bool := (decodeMap m).isOk

/-- The bit `sel` (30_encoding R86). -/
def Table.sel : Table → BitVec 1
  | .layerMap => 0
  | .dirMap => 1

/-- A mapping word from its kind and argument (30_encoding R90). -/
def mapWord (k : Kind) (arg : BitVec 16) : MapWord := k.code ++ arg

/-- The word of an instruction, written from the tables of 30_encoding R83 to R86 and R91. -/
def encode : Instr → Word
  | .lset idx r g b => .cmd (0x01#8 ++ idx ++ r ++ g ++ b)
  | .lshow => .cmd (0x02#8 ++ 0#32)
  | .kframe => .cmd (0x03#8 ++ 0#32)
  | .frame => .cmd (0x04#8 ++ 0#32)
  | .klook sel ctl layer => .cmd (0x05#8 ++ ctl ++ 0#7 ++ sel.sel ++ 0#14 ++ layer)
  | .noop => .map (mapWord .noop 0)
  | .key kc => .map (mapWord .key (0#8 ++ kc))
  | .cons code => .map (mapWord .cons code)
  | .mouse b => .map (mapWord .mouse (0#14 ++ b))
  | .joybtn => .map (mapWord .joybtn 0)
  | .mo n => .map (mapWord .mo (0#14 ++ n))
  | .st n => .map (mapWord .st (0#14 ++ n))
  | .mode v => .map (mapWord .mode v)
  | .trns => .map (mapWord .trns 0)

/-- The word an opcode-table row of `nbits` bits stands for: the table has command rows of 40 bits and mapping rows of
20, which is 24 in whole bytes (log 18). A number too large for its word is no word. -/
def wordOfTable (nbits w : Nat) : Option Word :=
  if nbits ≤ 24 then
    if w < 2 ^ 20 then some (.map (BitVec.ofNat 20 w)) else none
  else
    if w < 2 ^ 40 then some (.cmd (BitVec.ofNat 40 w)) else none

/-- The instruction the decoder reads from a row's word; none where it rejects. -/
def decodeTableWord (nbits w : Nat) : Option Instr :=
  match wordOfTable nbits w with
  | some x => (decode x).toOption
  | none => none

/-- `LOFF idx` (30_encoding R102). -/
def Instr.loff (idx : Byte) : Instr := .lset idx 0 0 0

/-- `LFILL r, g, b` (30_encoding R102): one `LSET` for each LED, index 0 first. -/
def Instr.lfill (c : Config) (r g b : Byte) : List Instr :=
  (List.range c.nLed).map (fun i => .lset (BitVec.ofNat 8 i) r g b)

/-- `MOUSE_L` (30_encoding R102). -/
def Instr.mouseL : Instr := .mouse 0

/-- `MOUSE_R` (30_encoding R102). -/
def Instr.mouseR : Instr := .mouse 1

/-- `MOUSE_S` (30_encoding R102). -/
def Instr.mouseS : Instr := .mouse 2

/-- `WASD_TOGGLE` (30_encoding R102). -/
def Instr.wasdToggle : Instr := .mode 0

end Sys2Proof
end

