-- ==== Sys2Proof/Machine/ConfigWf.lean ====
section
/-! DEFINITION. Reading the configuration tables, `WF_CONFIG` clause by clause (00_scope R6), and `INV_L0`. -/

namespace Sys2Proof

/-- `LAYERMAP[l][c]` or `DIRMAP[l][c]` (00_scope R10). Outside a table the word read is 0; in a well-formed
configuration no rule reads there (10_state R28, 20_memory R63; log 16). -/
def Config.word (c : Config) (t : Table) (l ix : Nat) : MapWord :=
  match t with
  | .layerMap => (c.layerMap.getD l []).getD ix 0
  | .dirMap => (c.dirMap.getD l []).getD ix 0

/-- How many entries a row of the table has: `NCTL` controls, or 4 directions (20_memory R60). -/
def Config.rowSize (c : Config) : Table → Nat
  | .layerMap => c.nCtl
  | .dirMap => 4

/-- `GAMMA[v]`. -/
def Config.gammaAt (c : Config) (v : Byte) : Byte := c.gamma.getD v.toNat 0

/-- Every word of `LAYERMAP` and `DIRMAP`. -/
def Config.words (c : Config) : List MapWord := c.layerMap.flatten ++ c.dirMap.flatten

/-- Clause 1 of `WF_CONFIG`: every table word is a legal mapping word. -/
def Config.wordsLegal (c : Config) : Bool := c.words.all mapLegal

/-- The kinds that change the layer or the mode (30_encoding R97). -/
def Kind.stateAffecting : Kind → Bool
  | .mo => true
  | .st => true
  | .mode => true
  | .noop => false
  | .key => false
  | .cons => false
  | .mouse => false
  | .joybtn => false
  | .trns => false

/-- Clause 2 of `WF_CONFIG`: no word of `DIRMAP` is `MO`, `ST` or `MODE`. -/
def Config.dirsInert (c : Config) : Bool :=
  c.dirMap.flatten.all (fun m => !((kindOf m).any Kind.stateAffecting))

/-- Clause 3 of `WF_CONFIG`: `GAMMA[BUDGET] ≠ 255`. -/
def Config.whiteBelowMax (c : Config) : Bool := c.gammaAt c.budget != 255

/-- `WIRE_ORDER` is a permutation of `R, G, B` (00_scope R5). -/
def Config.orderOk (c : Config) : Bool := c.w0 != c.w1 && c.w1 != c.w2 && c.w0 != c.w2

/-- Clause 4 of `WF_CONFIG`: the ranges and sizes of 00_scope R5. -/
def Config.rangesOk (c : Config) : Bool :=
  decide (1 ≤ c.nKeys) && decide (c.nKeys ≤ 252) && decide (1 ≤ c.kcCap) && decide (c.kcCap ≤ 255)
    && decide (1 ≤ c.nLed) && decide (c.nLed ≤ 256) && c.gamma.length == 256 && c.orderOk
    && c.ledDefault.length == c.nLed
    && c.layerMap.length == numLayers && c.layerMap.all (fun row => row.length == c.nCtl)
    && c.dirMap.length == numLayers && c.dirMap.all (fun row => row.length == 4)

/-- `WF_CONFIG(CFG)` (00_scope R6). -/
def Config.wf (c : Config) : Bool := c.wordsLegal && c.dirsInert && c.whiteBelowMax && c.rangesOk

/-- `INV_L0(CFG)`: no control is transparent at layer 0 (00_scope R6). It is no clause of `WF_CONFIG`. -/
def Config.invL0 (c : Config) : Bool :=
  (List.range c.nCtl).all (fun ix => kindOf (c.word .layerMap 0 ix) != some .trns)

end Sys2Proof
end

