-- ==== Sys2Proof/Machine/Instance.lean ====
section
/-! DEFINITION. CFG-A, the configuration instance that the spec writes out in full (95_test_vectors section 1). The
hardware's open parameters stay parameters: this instance is only what `State.reset` is built with (log 1). -/

namespace Sys2Proof

/-- `GAMMA[v] = floor(v × v / 255)` of CFG-A. -/
def gammaA : List Byte := (List.range 256).map (fun v => BitVec.ofNat 8 (v * v / 255))

/-- `LAYERMAP` of CFG-A, layer 0: `K0` to `K5`, `JOY`, `SCR`, `ROTA`, `ROTB`. -/
def layerA0 : List MapWord :=
  [0x10004, 0x10005, 0x50001, 0x60002, 0x70000, 0x200E9, 0x40000, 0x30002, 0x00000, 0x00000]

/-- `LAYERMAP` of CFG-A, layer 1. -/
def layerA1 : List MapWord :=
  [0x1001E, 0xF0000, 0xF0000, 0xF0000, 0xF0000, 0x200EA, 0x30000, 0xF0000, 0xF0000, 0xF0000]

/-- `LAYERMAP` of CFG-A, layer 2. -/
def layerA2 : List MapWord :=
  [0xF0000, 0x10006, 0xF0000, 0x60000, 0x70001, 0x00000, 0xF0000, 0x30001, 0xF0000, 0xF0000]

/-- `LAYERMAP` of CFG-A, layer 3. -/
def layerA3 : List MapWord := List.replicate 10 0xF0000

/-- `DIRMAP` of CFG-A: `UP`, `DOWN`, `LEFT`, `RIGHT` at each layer. -/
def dirMapA : List (List MapWord) :=
  [[0x1001A, 0x10016, 0x10004, 0x10007],
   [0xF0000, 0xF0000, 0xF0000, 0xF0000],
   [0x10052, 0xF0000, 0xF0000, 0xF0000],
   [0xF0000, 0xF0000, 0xF0000, 0xF0000]]

/-- CFG-A. -/
def Config.cfgA : Config where
  nKeys := 6
  kcCap := 26
  nLed := 3
  budget := 128
  gamma := gammaA
  w0 := .g
  w1 := .r
  w2 := .b
  ledDefault := List.replicate 3 ⟨0, 0, 0⟩
  layerMap := [layerA0, layerA1, layerA2, layerA3]
  dirMap := dirMapA
  xc := 512
  yc := 512
  xdz := 100
  ydz := 100

end Sys2Proof
end

