-- ==== Sys2Proof/Machine/State.lean ====
section
/-! DEFINITION. The state of the LKB (10_state), the reasons a step can stop, and the state after reset. Plain data,
grouped as 10_state groups it: KeymapState, report registers, lookup result, LED unit, status, diagnostics,
transients of a frame; and the inputs the host presents (log 2). -/

namespace Sys2Proof.Machine

/-- KeymapState (10_state R24 to R27). -/
structure KeymapState where
  /-- `CUR_LAYER`. -/
  cur : LayerIx
  /-- `STO_LAYER`. -/
  sto : LayerIx
  /-- `WASD`. -/
  wasd : Bool
  /-- `PREV_A`. -/
  prevA : Bool
deriving DecidableEq, Repr

/-- The report registers (10_state R30 to R37). -/
structure Report where
  /-- `RPT_KEYS`, `KC_CAP` slots. -/
  keys : List Byte
  /-- `RPT_MOUSE`. -/
  mouse : BitVec 3
  /-- `RPT_JOYBTN`. -/
  joyBtn : Bool
  /-- `RPT_CONS`. -/
  cons : BitVec 16
  /-- `RPT_WHEEL`, signed. -/
  wheel : BitVec 8
  /-- `RPT_X`, signed. -/
  x : BitVec 32
  /-- `RPT_Y`, signed. -/
  y : BitVec 32
  /-- `RPT_MOD`. -/
  modifier : BitVec 8
deriving DecidableEq, Repr

/-- `LOOKUP_RES` and `LOOKUP_LAYER` (10_state R38). -/
structure LookupResult where
  res : MapWord
  layer : LayerIx
deriving DecidableEq, Repr

/-- `HALTED`, `FATAL_CODE`, `FATAL_INFO` (10_state R46). -/
structure HaltRegs where
  halted : Bool
  code : BitVec 4
  info : BitVec 16
deriving DecidableEq, Repr

/-- The three diagnostics the LKB emits (60_exceptions R211). -/
inductive DiagEvent where
  /-- Code 1, `KC_OVERFLOW`. -/
  | kcOverflow
  /-- Code 2, `STATE_CONFLICT`. -/
  | stateConflict
  /-- Code 8, `CONS_CONFLICT`. -/
  | consConflict
deriving DecidableEq, Repr

/-- The three fatal events the LKB raises (60_exceptions R211). -/
inductive FatalEvent where
  /-- Code 3, `NO_HANDLER`. -/
  | noHandler
  /-- Code 4, `LED_INDEX`. -/
  | ledIndex
  /-- Code 7, `ILLEGAL_CMD`. -/
  | illegalCmd
deriving DecidableEq, Repr

/-- One entry of `DIAGLOG` (10_state R48). -/
structure DiagEntry where
  event : DiagEvent
  info : BitVec 16
deriving DecidableEq, Repr

/-- The diagnostic counters and `DIAGLOG` (10_state R47, R48). -/
structure DiagRegs where
  /-- `DIAG_OVF`. -/
  ovf : BitVec 16
  /-- `DIAG_CONFLICT`. -/
  conflict : BitVec 16
  /-- `DIAG_CONS`. -/
  cons : BitVec 16
  /-- `DIAGLOG`, oldest first. -/
  log : List DiagEntry
deriving DecidableEq, Repr

/-- A mapping word of kind `MO` or `ST`, as `LAYER_REQ` holds it (10_state R50). -/
inductive LayerReq where
  | mo (n : LayerIx)
  | st (n : LayerIx)
deriving DecidableEq, Repr

/-- The transients of a frame (10_state R50). -/
structure FrameVars where
  /-- `ACC_KEYS`, first appended first. -/
  accKeys : List Byte
  /-- `ACC_MOUSE`. -/
  accMouse : BitVec 3
  /-- `ACC_JOY`. -/
  accJoy : Bool
  /-- `ACC_CONS`. -/
  accCons : Option (BitVec 16)
  /-- `LAYER_REQ`. -/
  layerReq : Option LayerReq
  /-- `MODE_REQ`: the argument `v` of the `MODE(v)` word. -/
  modeReq : Option (BitVec 16)
  /-- `wheel`. -/
  wheel : Int
  /-- `cx`, `cy`. -/
  cx : Int
  cy : Int
  /-- `dir[UP]`, `dir[DOWN]`, `dir[LEFT]`, `dir[RIGHT]`. -/
  up : Bool
  down : Bool
  left : Bool
  right : Bool
deriving DecidableEq, Repr

/-- One segment of the wire trace (10_state R44). -/
structure Segment where
  level : Bool
  duration : Duration
deriving DecidableEq, Repr

/-- The levels on the snapshot pins (10_state R23, R57). `act` is as wide as the widest block needs
(`N_KEYS + 2 ≤ 254`); a block has the pins `0` to `N_KEYS + 1` and reads no other bit (log 6). -/
structure Pins where
  act : BitVec 254
  rotA : Bool
  rotB : Bool
  sx : BitVec 16
  sy : BitVec 16
deriving DecidableEq, Repr

/-- What the environment presents to the block (10_state R57; log 2). -/
inductive Input where
  /-- The host presents a command word; the pins stand at these levels when it is accepted. -/
  | command (w : CmdWord) (pins : Pins)
  /-- `rst` is asserted between two commands (70_reset R240, R241). -/
  | reset
  /-- The MODEL's own: the keymap unit dispatches on this one mapping word, outside a frame (log 3). -/
  | mapping (m : MapWord)
deriving DecidableEq, Repr

/-- The state of the LKB. -/
structure State where
  /-- `CFG`: a parameter, which no step writes (10_state R54; log 1). -/
  cfg : Config
  /-- KeymapState (R24 to R27). -/
  keymap : KeymapState
  /-- The report registers (R30 to R37). -/
  report : Report
  /-- The result of the last `KLOOK` (R38). -/
  lookup : LookupResult
  /-- `LEDBUF` (R40): the cells, by element index `3 i + k`, that differ from the reset contents (log 7). -/
  ledbuf : List Host.Cell
  /-- `LINE` (R41). -/
  line : Bool
  /-- `WIRE` (R44), oldest segment first. -/
  wire : List Segment
  /-- The halt registers (R46). -/
  halt : HaltRegs
  /-- The diagnostic counters and log (R47, R48). -/
  diag : DiagRegs
  /-- The transients of a frame (R50), at their initial values between commands (log 8). -/
  frame : FrameVars
  /-- The levels on the snapshot pins at the last acceptance (R23): an input (log 6). -/
  pins : Pins
  /-- What the environment presents next, first one first (log 2). -/
  inbox : List Input
deriving DecidableEq, Repr

/-- Why the machine stops. -/
inductive Fault where
  /-- Raised by `step` while `HALTED = 1` and no reset is asserted: the block accepts no command and has no step
  (60_exceptions R222, 93 U10). Safe: nothing can be proved to happen after a fatal event. -/
  | halted
deriving DecidableEq, Repr

/-- Why the model gives no meaning. -/
inductive Refusal where
  /-- Raised by an arm of `exec` whose instruction has no meaning yet (none is left). Safe. -/
  | notModelled (mnemonic : String)
  /-- Raised by `step`, and by the frame commands, on a configuration that is not well-formed (00_scope R6, 93 U1).
  Safe: the spec gives the hardware no behaviour there. -/
  | illFormedConfig
  /-- Raised on a reserved mapping word presented on its own, and by the meaning of the reserved `MOUSE(3)`
  (30_encoding R96, 93 U1). Safe: the spec calls the behaviour unspecified. -/
  | reservedMapping
deriving DecidableEq, Repr

/-- The transients at their initial values (10_state R50). -/
def FrameVars.initial : FrameVars where
  accKeys := []
  accMouse := 0
  accJoy := false
  accCons := none
  layerReq := none
  modeReq := none
  wheel := 0
  cx := 0
  cy := 0
  up := false
  down := false
  left := false
  right := false

/-- The pins as `State.reset` finds them: all low, samples 0 (an input, not state; log 6). -/
def Pins.idle : Pins where
  act := 0
  rotA := false
  rotB := false
  sx := 0
  sy := 0

/-- The report registers after reset (10_state R31 to R37). -/
def Report.empty (c : Config) : Report where
  keys := List.replicate c.kcCap 0x00
  mouse := 0
  joyBtn := false
  cons := 0x0000
  wheel := 0
  x := 0
  y := 0
  modifier := 0x00

/-- The state after reset of the block with configuration `c` (10_state R56, 70_reset R240). `LEDBUF` lists nothing:
an unlisted cell reads as `Correct(LED_DEFAULT[i])` (70_reset R242). -/
def State.resetOf (c : Config) : State where
  cfg := c
  keymap := ⟨0, 0, false, false⟩
  report := Report.empty c
  lookup := ⟨0x00000, 0⟩
  ledbuf := []
  line := false
  wire := []
  halt := ⟨false, 0, 0x0000⟩
  diag := ⟨0, 0, 0, []⟩
  frame := FrameVars.initial
  pins := Pins.idle
  inbox := []

/-- The state after reset of the spec's written-out instance CFG-A (log 1). -/
def State.reset : State := State.resetOf Config.cfgA

end Sys2Proof.Machine
end

