-- ==== Sys2Proof/Machine/Update.lean ====
section
/-! DEFINITION. One update per field of `State`. Every operation writes the state through these; Laws/State.lean has
one lemma per field per update. -/

namespace Sys2Proof.Machine

/-- Write KeymapState. -/
def State.setKeymap (s : State) (k : KeymapState) : State := { s with keymap := k }

/-- Write the report registers, together (10_state R30). -/
def State.setReport (s : State) (r : Report) : State := { s with report := r }

/-- Write `LOOKUP_RES` and `LOOKUP_LAYER`. -/
def State.setLookup (s : State) (l : LookupResult) : State := { s with lookup := l }

/-- Write the LED buffer. -/
def State.setLedbuf (s : State) (m : List Host.Cell) : State := { s with ledbuf := m }

/-- Write `LINE`. -/
def State.setLine (s : State) (b : Bool) : State := { s with line := b }

/-- Write the wire trace. -/
def State.setWire (s : State) (w : List Segment) : State := { s with wire := w }

/-- Write the halt registers. -/
def State.setHalt (s : State) (h : HaltRegs) : State := { s with halt := h }

/-- Write the diagnostic counters and log. -/
def State.setDiag (s : State) (d : DiagRegs) : State := { s with diag := d }

/-- Write the transients of the frame. -/
def State.setFrame (s : State) (f : FrameVars) : State := { s with frame := f }

/-- Put these levels on the snapshot pins. -/
def State.setPins (s : State) (p : Pins) : State := { s with pins := p }

/-- Replace what the environment presents next. -/
def State.setInbox (s : State) (i : List Input) : State := { s with inbox := i }

end Sys2Proof.Machine
end

