-- ==== Sys2Proof/Machine/Correct.lean ====
section
/-! DEFINITION. The colour-correction pipeline of the LED unit (40_led_commands R112 to R116), a pure function of the
colour and of the configuration. -/

namespace Sys2Proof.Machine

/-- `bitrev8(v)`: bit `j` of the result is bit `7 - j` of `v` (00_scope R10). -/
def bitrev8 (v : Byte) : Byte :=
  BitVec.ofBool (v.getLsbD 0) ++ BitVec.ofBool (v.getLsbD 1) ++ BitVec.ofBool (v.getLsbD 2)
    ++ BitVec.ofBool (v.getLsbD 3) ++ BitVec.ofBool (v.getLsbD 4) ++ BitVec.ofBool (v.getLsbD 5)
    ++ BitVec.ofBool (v.getLsbD 6) ++ BitVec.ofBool (v.getLsbD 7)

/-- `Scale(c) = floor(c × BUDGET / 255)` (40_led_commands R112). -/
def scale (cfg : Config) (c : Byte) : Byte := BitVec.ofNat 8 (c.toNat * cfg.budget.toNat / 255)

/-- `Chan(c) = bitrev8(GAMMA[Scale(c)])` (40_led_commands R113). -/
def chan (cfg : Config) (c : Byte) : Byte := bitrev8 (cfg.gammaAt (scale cfg c))

/-- `ch(w)`: the value of channel `w` of a colour (40_led_commands R114). -/
def channelOf (col : Rgb) : Channel → Byte
  | .r => col.r
  | .g => col.g
  | .b => col.b

/-- `WIRE_ORDER[k]`: the channel of byte `k` (10_state R40); `k` is 0, 1 or 2. -/
def wireChannel (cfg : Config) : Nat → Channel
  | 0 => cfg.w0
  | 1 => cfg.w1
  | _ => cfg.w2

/-- Byte `k` of `Correct(colour)` (40_led_commands R114). -/
def correct (cfg : Config) (col : Rgb) (k : Nat) : Byte := chan cfg (channelOf col (wireChannel cfg k))

/-- `LED_DEFAULT[i]` (00_scope R5). -/
def ledDefault (cfg : Config) (i : Nat) : Rgb := cfg.ledDefault.getD i ⟨0, 0, 0⟩

end Sys2Proof.Machine
end

