-- ==== Sys2Proof/Machine/Ops.lean ====
section
/-! DEFINITION. The shared operations: the LED buffer's cells, the wire, diagnostics, the fatal halt (the LKB's one
exception, 60_exceptions R220) and the reset that alone leaves it (R223), and the sequencing of a command that may
halt. -/

namespace Sys2Proof.Machine

/-! ### Storage in canonical form -/

/-- The byte at `a`; an unlisted address reads as `d a`. -/
def Memory.read (d : Nat → Byte) : List Host.Cell → Nat → Byte
  | [], a => d a
  | (k, v) :: rest, a => if k = a then v else Memory.read d rest a

/-- List the byte `v` at `a`, keeping the addresses rising. -/
def Memory.insert : List Host.Cell → Nat → Byte → List Host.Cell
  | [], a, v => [(a, v)]
  | (k, w) :: rest, a, v =>
    if a < k then (a, v) :: (k, w) :: rest
    else if a = k then (a, v) :: rest
    else (k, w) :: Memory.insert rest a v

/-- Unlist the address `a`. -/
def Memory.erase (m : List Host.Cell) (a : Nat) : List Host.Cell := m.filter (fun c => c.1 != a)

/-- Write the byte `v` at `a`; a byte equal to what the unlisted address reads as is not listed. -/
def Memory.write (d : Nat → Byte) (m : List Host.Cell) (a : Nat) (v : Byte) : List Host.Cell :=
  if v = d a then Memory.erase m a else Memory.insert m a v

/-- The canonical form: addresses strictly rising and below `size`, no entry equal to what the unlisted address
reads as. -/
abbrev Memory.wf (d : Nat → Byte) (size : Nat) (m : List Host.Cell) : Prop :=
  m.Pairwise (fun x y => x.1 < y.1) ∧ ∀ c ∈ m, c.1 < size ∧ c.2 ≠ d c.1

/-! ### The LED buffer (10_state R40) -/

/-- The element index of `LEDBUF[i][k]` (log 7). -/
def ledKey (i k : Nat) : Nat := 3 * i + k

/-- The number of cells of the LED buffer. -/
def ledSize (cfg : Config) : Nat := 3 * cfg.nLed

/-- What a cell holds after reset: byte `k` of `Correct(LED_DEFAULT[i])` (70_reset R242). -/
def ledResetByte (cfg : Config) (a : Nat) : Byte := correct cfg (ledDefault cfg (a / 3)) (a % 3)

/-- `LEDBUF[i][k]` (00_scope R10). -/
def ledByte (s : State) (i k : Nat) : Byte := Memory.read (ledResetByte s.cfg) s.ledbuf (ledKey i k)

/-- `LEDBUF[i][k] <- v` (00_scope R10). -/
def setLedByte (i k : Nat) (v : Byte) (s : State) : State :=
  s.setLedbuf (Memory.write (ledResetByte s.cfg) s.ledbuf (ledKey i k) v)

/-! ### The wire (10_state R41, R44) -/

/-- `Emit(level, duration)` (00_scope R10). -/
def emit (s : State) (g : Segment) : State := (s.setLine g.level).setWire (s.wire ++ [g])

/-- Emit the segments in order. -/
def emitAll (gs : List Segment) (s : State) : State := gs.foldl emit s

/-! ### Diagnostics (60_exceptions R216) -/

/-- The code of a diagnostic (60_exceptions R211). -/
def DiagEvent.code : DiagEvent → BitVec 4
  | .kcOverflow => 1
  | .stateConflict => 2
  | .consConflict => 8

/-- The diagnostic registers after `Diag(code, info)`: the log is appended and the counter of the code steps. -/
def DiagRegs.emit (d : DiagRegs) (e : DiagEvent) (info : BitVec 16) : DiagRegs where
  ovf := if e = .kcOverflow then d.ovf + 1 else d.ovf
  conflict := if e = .stateConflict then d.conflict + 1 else d.conflict
  cons := if e = .consConflict then d.cons + 1 else d.cons
  log := d.log ++ [⟨e, info⟩]

/-- `Diag(code, info)` (60_exceptions R216). -/
def diagnose (e : DiagEvent) (info : BitVec 16) (s : State) : State := s.setDiag (s.diag.emit e info)

/-! ### The fatal halt, and reset -/

/-- The code of a fatal event (60_exceptions R211). -/
def FatalEvent.code : FatalEvent → BitVec 4
  | .noHandler => 3
  | .ledIndex => 4
  | .illegalCmd => 7

/-- `raise Fatal(code, info)` (60_exceptions R220): the cause is recorded and the block is halted. There is no vector
and no saved return point. That no later line of the command executes is `Flow.andThen`. -/
def raiseFatal (e : FatalEvent) (info : BitVec 16) (s : State) : State := s.setHalt ⟨true, e.code, info⟩

/-- There is no return from a halt; only reset clears `HALTED`, and with it all other state (60_exceptions R223,
70_reset R240). The configuration is kept, and so are the inputs, which are not the block's (log 12). -/
def takeReset (s : State) : State := ((State.resetOf s.cfg).setPins s.pins).setInbox s.inbox

/-- A command under way: it goes on, or a fatal event has halted the block. -/
inductive Flow where
  | go (s : State)
  | halt (s : State)
deriving DecidableEq, Repr

/-- The next lines of a command: a fatal event has ended it (60_exceptions R220). -/
def Flow.andThen : Flow → (State → Flow) → Flow
  | .go s, f => f s
  | .halt s, _ => .halt s

/-- The state a command leaves, whether or not it halted. -/
def Flow.state : Flow → State
  | .go s => s
  | .halt s => s

/-- A command that has ended. The fatal halt is entered: it is a next state, in which `HALTED = 1` (log 5). -/
def Flow.done (f : Flow) : Host.Outcome State Fault Refusal := .next f.state

end Sys2Proof.Machine
end

