-- ==== Sys2Proof/Machine/Operands.lean ====
section
/-! DEFINITION. The operand forms: every operand of a command is an unsigned immediate (30_encoding R82), checked
against the bounds of what it indexes (20_memory R63); the operand of a table access is resolved by the collapse walk
(41_keymap_lookup R140). -/

namespace Sys2Proof.Machine

/-- The index value of a direction (10_state R22). -/
def dirIndex : Direction → Nat
  | .up => 0
  | .down => 1
  | .left => 2
  | .right => 3

/-- The index values of `JOY`, `SCR`, `ROTA` and `ROTB` (10_state R22). -/
def joyIndex (cfg : Config) : Nat := cfg.nKeys
def scrIndex (cfg : Config) : Nat := cfg.nKeys + 1
def rotaIndex (cfg : Config) : Nat := cfg.nKeys + 2
def rotbIndex (cfg : Config) : Nat := cfg.nKeys + 3

/-- The bounds check of `LSET` (40_led_commands R111). -/
def ledIndexOk (cfg : Config) (idx : Byte) : Bool := decide (idx.toNat < cfg.nLed)

/-- The bounds check of `KLOOK` (41_keymap_lookup R146, R147). -/
def lookupIndexOk (cfg : Config) (t : Table) (ctl : Byte) : Bool := decide (ctl.toNat < cfg.rowSize t)

/-- `Collapse(T, c, l0)` (41_keymap_lookup R140): the word found, and the layer it was found at. -/
def collapse (cfg : Config) (t : Table) (ix : Nat) : Nat → MapWord × Nat
  | 0 => (cfg.word t 0 ix, 0)
  | l + 1 =>
    if kindOf (cfg.word t (l + 1) ix) = some .trns then collapse cfg t ix l
    else (cfg.word t (l + 1) ix, l + 1)

/-- The word a table entry resolves to at `CUR_LAYER`. -/
def resolve (s : State) (t : Table) (ix : Nat) : MapWord := (collapse s.cfg t ix s.keymap.cur.toNat).1

/-- The scan order: keys by index, then `JOY`, then `SCR` (42_keymap_frame R177). -/
def scanOrder (cfg : Config) : List Nat := List.range (cfg.nKeys + 2)

/-- The actuated controls of the snapshot, in scan order (42_keymap_frame R177). -/
def actuated (s : State) : List Nat := (scanOrder s.cfg).filter (fun c => s.pins.act.getLsbD c)

end Sys2Proof.Machine
end

