-- ==== Sys2Proof/Machine/Flags.lean ====
section
/-! DEFINITION. The single-bit elements and their writers (10_state R52), and the comparisons that compute them. There
are no condition codes. -/

namespace Sys2Proof.Machine

/-- `WASD <- ¬WASD` (42_keymap_frame R181). -/
def toggleWasd (s : State) : State := s.setKeymap { s.keymap with wasd := !s.keymap.wasd }

/-- The wheel step of a frame, from the previous and the present phase A and the present phase B
(42_keymap_frame R173). -/
def wheelStep (prevA a b : Bool) : Int := if a = prevA then 0 else if b = a then 1 else -1

/-- `PREV_A <- S.rot_a` (42_keymap_frame R173). -/
def recordPhase (s : State) : State := s.setKeymap { s.keymap with prevA := s.pins.rotA }

/-- A centred coordinate beyond the positive threshold (42_keymap_frame R175). -/
def beyondPos (c : Int) (dz : BitVec 15) : Bool := decide (c > (dz.toNat : Int))

/-- A centred coordinate beyond the negative threshold (42_keymap_frame R175). -/
def beyondNeg (c : Int) (dz : BitVec 15) : Bool := decide (c < -(dz.toNat : Int))

/-- `dir[d]` (10_state R50). -/
def FrameVars.pressed (f : FrameVars) : Direction → Bool
  | .up => f.up
  | .down => f.down
  | .left => f.left
  | .right => f.right

/-- The mouse flag of button `b`, `1 << b` (30_encoding R94). -/
def mouseFlag (b : BitVec 2) : BitVec 3 := 1#3 <<< b.toNat

/-- `cmd_ready` between two steps: 0 for ever once `HALTED = 1` (10_state R57, 60_exceptions R222). -/
def cmdReady (s : State) : Bool := !s.halt.halted

end Sys2Proof.Machine
end

