-- ==== Sys2Proof/Machine/Accumulator.lean ====
section
/-! DEFINITION. The report accumulator's treatment of each kind of mapping word (41_keymap_lookup R150 to R158). -/

namespace Sys2Proof.Machine

/-- `Add(KEY(kc))` (41_keymap_lookup R151). -/
def addKey (kc : Byte) (s : State) : State :=
  if kc = 0x00 then s
  else if s.frame.accKeys.length < s.cfg.kcCap then s.setFrame { s.frame with accKeys := s.frame.accKeys ++ [kc] }
  else diagnose .kcOverflow (kc.setWidth 16) s

/-- `Add(CONS(code))` (41_keymap_lookup R152). -/
def addCons (code : BitVec 16) (s : State) : State :=
  match s.frame.accCons with
  | none => s.setFrame { s.frame with accCons := some code }
  | some _ => diagnose .consConflict code s

/-- `Add(MOUSE(b))` (41_keymap_lookup R153). -/
def addMouse (b : BitVec 2) (s : State) : State :=
  s.setFrame { s.frame with accMouse := s.frame.accMouse ||| mouseFlag b }

/-- `Add(JOYBTN)` (41_keymap_lookup R154). -/
def addJoyBtn (s : State) : State := s.setFrame { s.frame with accJoy := true }

/-- `Add(m)` (41_keymap_lookup R150). A word of a reserved kind stands in no well-formed configuration, and the frame
commands refuse any other (00_scope R6), so the last arm is never reached by a step. -/
def add (s : State) (m : MapWord) : State :=
  match kindOf m with
  | some .key => addKey (argByte m) s
  | some .cons => addCons (argBits m) s
  | some .mouse => addMouse (argTwo m) s
  | some .joybtn => addJoyBtn s
  | some .noop => s
  | some .trns => s
  | some .mo => s
  | some .st => s
  | some .mode => s
  | none => s

/-- `KEY(kc)` (41_keymap_lookup R151). -/
def execKey (kc : Byte) (s : State) : Host.Outcome State Fault Refusal := .next (addKey kc s)

/-- `CONS(code)` (41_keymap_lookup R152). -/
def execCons (code : BitVec 16) (s : State) : Host.Outcome State Fault Refusal := .next (addCons code s)

/-- `MOUSE(b)` (41_keymap_lookup R153); `MOUSE(3)` is reserved (30_encoding R96). -/
def execMouse (b : BitVec 2) (s : State) : Host.Outcome State Fault Refusal :=
  if b = 3 then .refused .reservedMapping else .next (addMouse b s)

/-- `JOYBTN` (41_keymap_lookup R154). -/
def execJoybtn (s : State) : Host.Outcome State Fault Refusal := .next (addJoyBtn s)

/-- `NOOP` (41_keymap_lookup R155): no effect. -/
def execNoop (s : State) : Host.Outcome State Fault Refusal := .next s

/-- `TRNS` (41_keymap_lookup R156): its meaning is in the collapse walk; returned by a lookup it does nothing. -/
def execTrns (s : State) : Host.Outcome State Fault Refusal := .next s

end Sys2Proof.Machine
end

