-- ==== Sys2Proof/Machine/LayerMode.lean ====
section
/-! DEFINITION. The state-affecting mapping kinds: collecting them in pass 1 (42_keymap_frame R178, R179) and applying
them (R180 to R183). -/

namespace Sys2Proof.Machine

/-- `MO(n)` applied (42_keymap_frame R182). -/
def applyMo (n : LayerIx) (s : State) : State := s.setKeymap { s.keymap with cur := n }

/-- `ST(n)` applied (42_keymap_frame R183). -/
def applySt (n : LayerIx) (s : State) : State := s.setKeymap { s.keymap with cur := n, sto := n }

/-- `MODE(v)` applied (42_keymap_frame R181): 0 is the WASD toggle, every other variant has no handler. -/
def applyMode (v : BitVec 16) (s : State) : Flow :=
  if v = 0 then .go (toggleWasd s) else .halt (raiseFatal .noHandler v s)

/-- `MO(n)` (42_keymap_frame R182). -/
def execMo (n : LayerIx) (s : State) : Host.Outcome State Fault Refusal := .next (applyMo n s)

/-- `ST(n)` (42_keymap_frame R183). -/
def execSt (n : LayerIx) (s : State) : Host.Outcome State Fault Refusal := .next (applySt n s)

/-- `MODE(v)` (42_keymap_frame R181). -/
def execMode (v : BitVec 16) (s : State) : Host.Outcome State Fault Refusal := (applyMode v s).done

/-- The information word of a dropped request: the class in bit 15, the control in bits 7:0 (42_keymap_frame R178). -/
def conflictInfo (isMode : Bool) (c : Nat) : BitVec 16 := BitVec.ofBool isMode ++ 0#7 ++ BitVec.ofNat 8 c

/-- A layer change met in the scan: the first takes the slot, a later one is dropped (42_keymap_frame R178, R179). -/
def collectLayer (c : Nat) (r : LayerReq) (s : State) : State :=
  match s.frame.layerReq with
  | none => s.setFrame { s.frame with layerReq := some r }
  | some _ => diagnose .stateConflict (conflictInfo false c) s

/-- A mode toggle met in the scan: the first takes the slot, a later one is dropped (42_keymap_frame R178, R179). -/
def collectMode (c : Nat) (v : BitVec 16) (s : State) : State :=
  match s.frame.modeReq with
  | none => s.setFrame { s.frame with modeReq := some v }
  | some _ => diagnose .stateConflict (conflictInfo true c) s

/-- Collection of one resolved mapping of control `c` (42_keymap_frame R178). -/
def collect (s : State) (cm : Nat × MapWord) : State :=
  match kindOf cm.2 with
  | some .mo => collectLayer cm.1 (.mo (argTwo cm.2)) s
  | some .st => collectLayer cm.1 (.st (argTwo cm.2)) s
  | some .mode => collectMode cm.1 (argBits cm.2) s
  | some .key => s
  | some .cons => s
  | some .mouse => s
  | some .joybtn => s
  | some .noop => s
  | some .trns => s
  | none => s

/-- The layer request of the frame applied (42_keymap_frame R180). -/
def applyLayerReq (s : State) : State :=
  match s.frame.layerReq with
  | none => s
  | some (.mo n) => applyMo n s
  | some (.st n) => applySt n s

/-- The mode request of the frame applied (42_keymap_frame R180). -/
def applyModeReq (s : State) : Flow :=
  match s.frame.modeReq with
  | none => .go s
  | some v => applyMode v s

end Sys2Proof.Machine
end

