-- ==== Sys2Proof/Machine/Led.lean ====
section
/-! DEFINITION. The LED unit commands `LSET` and `LSHOW` (40_led_commands). -/

namespace Sys2Proof.Machine

/-- Store the corrected colour in entry `i`, its three bytes together (40_led_commands R110). -/
def storeColour (i : Nat) (col : Rgb) (s : State) : State :=
  setLedByte i 2 (correct s.cfg col 2) (setLedByte i 1 (correct s.cfg col 1) (setLedByte i 0 (correct s.cfg col 0) s))

/-- `LSET idx, r, g, b` (40_led_commands R110, R111). -/
def execLset (idx r g b : Byte) (s : State) : Host.Outcome State Fault Refusal :=
  if ledIndexOk s.cfg idx then .next (storeColour idx.toNat ⟨r, g, b⟩ s)
  else .next (raiseFatal .ledIndex (idx.setWidth 16) s)

/-- The bits of a stored byte, bit 7 first (40_led_commands R121). -/
def byteBits (v : Byte) : List Bool :=
  [v.getLsbD 7, v.getLsbD 6, v.getLsbD 5, v.getLsbD 4, v.getLsbD 3, v.getLsbD 2, v.getLsbD 1, v.getLsbD 0]

/-- `WireBits(LEDBUF)`: LED 0 first, bytes 0 to 2, bit 7 first (40_led_commands R121, R124). -/
def wireBits (s : State) : List Bool :=
  (List.range s.cfg.nLed).flatMap (fun i =>
    byteBits (ledByte s i 0) ++ byteBits (ledByte s i 1) ++ byteBits (ledByte s i 2))

/-- The cell of one bit (40_led_commands R122). -/
def bitCell (b : Bool) : List Segment :=
  if b then [⟨true, .long⟩, ⟨false, .short⟩] else [⟨true, .short⟩, ⟨false, .long⟩]

/-- The latch: the line held low for at least `T_RESET` (40_led_commands R123). -/
def latch : Segment := ⟨false, .reset⟩

/-- `Transmit()` (40_led_commands R121). -/
def transmit (s : State) : State :=
  (emit (emitAll ((wireBits s).flatMap bitCell) s) latch).setLine false

/-- `LSHOW` (40_led_commands R120). -/
def execLshow (s : State) : Host.Outcome State Fault Refusal := .next (transmit s)

/-- A symbol of the wire trace (40_led_commands R124). -/
inductive Symbol where
  | bit (b : Bool)
  | latch
deriving DecidableEq, Repr

/-- The symbol view of a wire trace (40_led_commands R124); none where the segments are no sequence of symbols. -/
def symbolView : List Segment → Option (List Symbol)
  | [] => some []
  | ⟨false, .reset⟩ :: rest => (symbolView rest).map (Symbol.latch :: ·)
  | ⟨true, .long⟩ :: ⟨false, .short⟩ :: rest => (symbolView rest).map (Symbol.bit true :: ·)
  | ⟨true, .short⟩ :: ⟨false, .long⟩ :: rest => (symbolView rest).map (Symbol.bit false :: ·)
  | _ => none

end Sys2Proof.Machine
end

