-- ==== Sys2Proof/Machine/Frame.lean ====
section
/-! DEFINITION. One frame of the keymap unit, `KFRAME` (42_keymap_frame R170 to R197), and `FRAME` (R198). -/

namespace Sys2Proof.Machine

/-- `Begin()` (42_keymap_frame R171): the counters cleared, the transients created. The snapshot `S` is `s.pins`. -/
def beginFrame (s : State) : State :=
  (s.setDiag { s.diag with ovf := 0, conflict := 0, cons := 0 }).setFrame FrameVars.initial

/-- `Rotary()` (42_keymap_frame R173). -/
def rotary (s : State) : State :=
  recordPhase (s.setFrame { s.frame with wheel := wheelStep s.keymap.prevA s.pins.rotA s.pins.rotB })

/-- `cx` (42_keymap_frame R174). -/
def centreX (s : State) : Int := s.pins.sx.toInt - s.cfg.xc.toInt

/-- `cy` (42_keymap_frame R174). -/
def centreY (s : State) : Int := s.pins.sy.toInt - s.cfg.yc.toInt

/-- `Stick()` (42_keymap_frame R174, R175). -/
def stick (s : State) : State :=
  s.setFrame { s.frame with
    cx := centreX s
    cy := centreY s
    up := beyondPos (centreY s) s.cfg.ydz
    down := beyondNeg (centreY s) s.cfg.ydz
    left := beyondNeg (centreX s) s.cfg.xdz
    right := beyondPos (centreX s) s.cfg.xdz }

/-- The actuated controls with the words they resolve to at `CUR_LAYER`, in scan order (42_keymap_frame R178). -/
def scanned (s : State) : List (Nat × MapWord) := (actuated s).map (fun c => (c, resolve s .layerMap c))

/-- `CUR_LAYER <- STO_LAYER` (42_keymap_frame R176). -/
def enterStored (s : State) : State := s.setKeymap { s.keymap with cur := s.keymap.sto }

/-- The collection of pass 1: every lookup is made at the stored layer, since nothing is applied until the scan is
over (42_keymap_frame R178). -/
def collectAll (s : State) : State := (scanned s).foldl collect s

/-- `Pass1()` (42_keymap_frame R176 to R183). -/
def pass1 (s : State) : Flow := applyModeReq (applyLayerReq (collectAll (enterStored s)))

/-- The directional presses, in the order of 42_keymap_frame R192. -/
def pressedDirs (s : State) : List Direction :=
  [Direction.up, .down, .left, .right].filter s.frame.pressed

/-- The words pass 2 feeds, in priority order (42_keymap_frame R190 to R192). -/
def fedWords (s : State) : List MapWord :=
  (if s.keymap.wasd then (pressedDirs s).map (fun d => resolve s .dirMap (dirIndex d)) else [])
    ++ (actuated s).map (resolve s .layerMap)

/-- `Pass2()` (42_keymap_frame R190). -/
def pass2 (s : State) : State := (fedWords s).foldl add s

/-- The keycode array: `cap` slots, unused ones `0x00` (42_keymap_frame R195). -/
def padKeys (cap : Nat) (ks : List Byte) : List Byte := (List.range cap).map (fun j => ks.getD j 0x00)

/-- `RPT_X` or `RPT_Y` (42_keymap_frame R196). -/
def position (wasd : Bool) (c : Int) : BitVec 32 := if wasd then 0 else BitVec.ofInt 32 c

/-- The report that finalisation packs (42_keymap_frame R195, R196). -/
def packReport (s : State) : Report where
  keys := padKeys s.cfg.kcCap s.frame.accKeys
  mouse := s.frame.accMouse
  joyBtn := s.frame.accJoy
  cons := s.frame.accCons.getD 0x0000
  wheel := BitVec.ofInt 8 s.frame.wheel
  x := position s.keymap.wasd s.frame.cx
  y := position s.keymap.wasd s.frame.cy
  modifier := 0x00

/-- `Finalise()` (42_keymap_frame R195). -/
def finalise (s : State) : State := s.setReport (packReport s)

/-- The end of the frame: the transients are discarded (10_state R50; log 8). -/
def discard (s : State) : State := s.setFrame FrameVars.initial

/-- The state pass 1 starts from. -/
def frameStart (s : State) : State := stick (rotary (beginFrame s))

/-- The end of a frame, completed or halted. -/
def endFrame : Flow → Flow
  | .go s => .go (discard (finalise (pass2 s)))
  | .halt s => .halt (discard s)

/-- `KFRAME()` (42_keymap_frame R170, R197). -/
def kframe (s : State) : Flow := endFrame (pass1 (frameStart s))

/-- `KFRAME` (42_keymap_frame R170). The model has no meaning for a configuration that is not well-formed, whose words
may be reserved (00_scope R6). -/
def execKframe (s : State) : Host.Outcome State Fault Refusal :=
  if s.cfg.wf then (kframe s).done else .refused .illFormedConfig

/-- `FRAME` (42_keymap_frame R198): `KFRAME()`, then `Transmit()` unless the block halted. -/
def execFrame (s : State) : Host.Outcome State Fault Refusal :=
  if s.cfg.wf then ((kframe s).andThen (fun t => .go (transmit t))).done else .refused .illFormedConfig

end Sys2Proof.Machine
end

