-- ==== Sys2Proof/Machine/Lookup.lean ====
section
/-! DEFINITION. `KLOOK`: one lookup on its own (41_keymap_lookup R146, R147). -/

namespace Sys2Proof.Machine

/-- Keep the result of a lookup where the host can read it (41_keymap_lookup R146). -/
def recordLookup (s : State) (found : MapWord × Nat) : State := s.setLookup ⟨found.1, BitVec.ofNat 2 found.2⟩

/-- `KLOOK sel, ctl, layer` (41_keymap_lookup R146, R147). -/
def execKlook (sel : Table) (ctl : Byte) (layer : LayerIx) (s : State) : Host.Outcome State Fault Refusal :=
  if lookupIndexOk s.cfg sel ctl then .next (recordLookup s (collapse s.cfg sel ctl.toNat layer.toNat))
  else .next (raiseFatal .illegalCmd (0x05#8 ++ ctl) s)

end Sys2Proof.Machine
end

