-- ==== Sys2Proof/Machine/Dispatch.lean ====
section
/-! DEFINITION. One arm per instruction. -/

namespace Sys2Proof.Machine

def exec (i : Instr) (s : State) : Host.Outcome State Fault Refusal :=
  match i with
  | .lset idx r g b => Sys2Proof.Machine.execLset idx r g b s
  | .lshow => Sys2Proof.Machine.execLshow s
  | .kframe => Sys2Proof.Machine.execKframe s
  | .frame => Sys2Proof.Machine.execFrame s
  | .klook sel ctl layer => Sys2Proof.Machine.execKlook sel ctl layer s
  | .noop => Sys2Proof.Machine.execNoop s
  | .key kc => Sys2Proof.Machine.execKey kc s
  | .cons code => Sys2Proof.Machine.execCons code s
  | .mouse b => Sys2Proof.Machine.execMouse b s
  | .joybtn => Sys2Proof.Machine.execJoybtn s
  | .mo n => Sys2Proof.Machine.execMo n s
  | .st n => Sys2Proof.Machine.execSt n s
  | .mode v => Sys2Proof.Machine.execMode v s
  | .trns => Sys2Proof.Machine.execTrns s

end Sys2Proof.Machine
end

