-- ==== Sys2Proof/Machine/Accept.lean ====
section
/-! DEFINITION. What the sequencer does with what is presented to it (10_state R57, 20_memory R70). Step.lean only
calls this. -/

namespace Sys2Proof.Machine

/-- The information word of an illegal command word, `{op, cmd[31:24]}` (30_encoding R87). -/
def illegalInfo (w : CmdWord) : BitVec 16 := opcode w ++ bodyTop w

/-- A command word is accepted: decode comes first, an illegal word raises event 7 and does nothing else
(30_encoding R87, 60_exceptions R215). -/
def acceptCommand (w : CmdWord) (s : State) : Host.Outcome State Fault Refusal :=
  match decodeCmd w with
  | .ok i => exec i s
  | .error _ => .next (raiseFatal .illegalCmd (illegalInfo w) s)

/-- A mapping word presented on its own (log 3); a reserved one has no meaning (30_encoding R96). -/
def acceptMapping (m : MapWord) (s : State) : Host.Outcome State Fault Refusal :=
  match decodeMap m with
  | .ok i => exec i s
  | .error _ => .refused .reservedMapping

/-- One step of a block with a well-formed configuration. Reset is taken whatever the block does (70_reset R240); a
halted block has no other step (60_exceptions R222); with nothing presented the block is idle with all state held
(60_exceptions R235; log 4). -/
def takeInput (s : State) : Host.Outcome State Fault Refusal :=
  match s.inbox with
  | .reset :: rest => .next (takeReset (s.setInbox rest))
  | .command w p :: rest =>
    if s.halt.halted then .fault .halted else acceptCommand w ((s.setPins p).setInbox rest)
  | .mapping m :: rest =>
    if s.halt.halted then .fault .halted else acceptMapping m (s.setInbox rest)
  | [] => if s.halt.halted then .fault .halted else .next s

/-- One step: a configuration that is not well-formed is refused (00_scope R6). -/
def sequencerStep (s : State) : Host.Outcome State Fault Refusal :=
  if s.cfg.wf then takeInput s else .refused .illFormedConfig

/-- Present a word before anything else: a command word with the pins as they stand, or a mapping word. -/
def present (x : Word) (s : State) : State :=
  match x with
  | .cmd w => s.setInbox (.command w s.pins :: s.inbox)
  | .map m => s.setInbox (.mapping m :: s.inbox)

end Sys2Proof.Machine
end

