-- ==== Sys2Proof/Machine/Step.lean ====
section
/-! DEFINITION. The step function, and placing the next instruction. -/

namespace Sys2Proof.Machine

/-- One step of the LKB: the complete execution of what is presented next (00_scope R7). -/
def step (s : State) : Host.Outcome State Fault Refusal := Sys2Proof.Machine.sequencerStep s

/-- `s` with the word of an opcode-table row presented next (log 2). The LKB fetches nothing (10_state R21): a command
word stands at the command port, a mapping word is given to the keymap unit (log 3). -/
def State.withFetchWord (s : State) (nbits w : Nat) : State :=
  match wordOfTable nbits w with
  | some x => present x s
  | none => s

end Sys2Proof.Machine
end

