-- ==== Sys2Proof/Machine/ReadPort.lean ====
section
/-! DEFINITION. The read port, a pure function of the state (20_memory R65 to R68), and the output pins of
10_state R57. -/

namespace Sys2Proof.Machine

/-- `RPT_KEYS[j]`, zero for a slot beyond `KC_CAP`. -/
def keySlot (s : State) (j : Nat) : Byte := if j < s.cfg.kcCap then s.report.keys.getD j 0x00 else 0x00

/-- `RPT_KEYW[q]`: four slots, the lower index in the less significant byte (20_memory R62, R66). -/
def keyWord (s : State) (q : Nat) : BitVec 32 :=
  keySlot s (4 * q + 3) ++ keySlot s (4 * q + 2) ++ keySlot s (4 * q + 1) ++ keySlot s (4 * q)

/-- `LEDW[i]` (20_memory R66), zero for `i ≥ N_LED` (R67). -/
def ledWord (s : State) (i : Nat) : BitVec 32 :=
  if i < s.cfg.nLed then 0#8 ++ ledByte s i 2 ++ ledByte s i 1 ++ ledByte s i 0 else 0

/-- `STATUS` (20_memory R66). -/
def statusWord (s : State) : BitVec 32 :=
  s.halt.info ++ 0#8 ++ s.halt.code ++ 0#3 ++ BitVec.ofBool s.halt.halted

/-- `KSTATE` (20_memory R66). -/
def kstateWord (s : State) : BitVec 32 :=
  0#26 ++ BitVec.ofBool s.keymap.prevA ++ BitVec.ofBool s.keymap.wasd ++ s.keymap.sto ++ s.keymap.cur

/-- `LOOKUP` (20_memory R66). -/
def lookupWord (s : State) : BitVec 32 := 0#6 ++ s.lookup.layer ++ 0#4 ++ s.lookup.res

/-- `RPT_BTN` (20_memory R66). -/
def buttonWord (s : State) : BitVec 32 :=
  s.report.modifier ++ s.report.wheel ++ 0#7 ++ BitVec.ofBool s.report.joyBtn ++ 0#5 ++ s.report.mouse

/-- `RegRead(raddr)` (20_memory R66); every other address reads 0 (R67). -/
def regRead (raddr : BitVec 12) (s : State) : BitVec 32 :=
  let a := raddr.toNat
  if a = 0x000 then statusWord s
  else if a = 0x001 then kstateWord s
  else if a = 0x002 then s.diag.conflict ++ s.diag.ovf
  else if a = 0x003 then 0#16 ++ s.diag.cons
  else if a = 0x004 then lookupWord s
  else if a = 0x008 then buttonWord s
  else if a = 0x009 then 0#16 ++ s.report.cons
  else if a = 0x00A then s.report.x
  else if a = 0x00B then s.report.y
  else if 0x010 ≤ a ∧ a ≤ 0x04F then keyWord s (a - 0x010)
  else if 0x100 ≤ a then ledWord s (a - 0x100)
  else 0

/-- The output pin `led_dout` (10_state R57). -/
def ledDout (s : State) : Bool := s.line

/-- The output pin `halted` (10_state R57). -/
def haltedPin (s : State) : Bool := s.halt.halted

end Sys2Proof.Machine
end

