-- ==== Sys2Proof/Safety.lean ====
section
/-! DEFINITION. What claims take as a good state and a safe run: the invariant that every step keeps, and the absence
of fatal events (60_exceptions R222: a halted state is never a successful end of a run). Then, in the namespace `Spec`,
the notions of the spec that the statements are written in, said a second time and directly (no frame state, no
passes). -/

namespace Sys2Proof.Machine

/-- The LED buffer is in canonical form. -/
def LedCanonical (s : State) : Prop := Memory.wf (ledResetByte s.cfg) (ledSize s.cfg) s.ledbuf

/-- The keycode array: `KC_CAP` slots, the populated ones first (10_state R31). -/
def KeysPacked (s : State) : Prop :=
  s.report.keys.length = s.cfg.kcCap ∧
    ∀ j, j + 1 < s.cfg.kcCap → s.report.keys.getD j 0 = 0 → s.report.keys.getD (j + 1) 0 = 0

/-- The accumulator's bound, and that the no-event placeholder is never appended (41_keymap_lookup R151). -/
def AccBounded (s : State) : Prop := s.frame.accKeys.length ≤ s.cfg.kcCap ∧ ∀ k ∈ s.frame.accKeys, k ≠ 0

/-- The values the report registers can hold (10_state R35 to R37). -/
def ReportInRange (s : State) : Prop :=
  (s.report.wheel = 0xFF ∨ s.report.wheel = 0x00 ∨ s.report.wheel = 0x01) ∧
    -65535 ≤ s.report.x.toInt ∧ s.report.x.toInt ≤ 65535 ∧
    -65535 ≤ s.report.y.toInt ∧ s.report.y.toInt ≤ 65535 ∧ s.report.modifier = 0

/-- The halt registers: no cause without a halt, and only the causes 3, 4 and 7 (60_exceptions R211, R213). -/
def HaltConsistent (s : State) : Prop :=
  if s.halt.halted then s.halt.code = 3 ∨ s.halt.code = 4 ∨ s.halt.code = 7
  else s.halt.code = 0 ∧ s.halt.info = 0

/-- The invariant of the block. -/
structure Inv (s : State) : Prop where
  config : s.cfg.wf = true
  led : LedCanonical s
  keys : KeysPacked s
  acc : AccBounded s
  report : ReportInRange s
  halt : HaltConsistent s
  lineLow : s.line = false
  wire : (symbolView s.wire).isSome = true

/-- Between commands the transients are discarded (10_state R50). -/
def TransientsDiscarded (s : State) : Prop := s.frame = FrameVars.initial

/-- No fatal event has occurred (60_exceptions R222). -/
def Running (s : State) : Prop := s.halt.halted = false

/-- `k` steps from `s` end in a state in which no fatal event has occurred. -/
def SafeRun (k : Nat) (s : State) : Prop :=
  match Sys2Proof.core.run k s with
  | .next t => Running t
  | .fault _ => False
  | .refused _ => False

end Sys2Proof.Machine

namespace Sys2Proof.Spec

open Sys2Proof.Machine

/-- The word control `c` resolves to at the stored layer, where pass 1 looks (42_keymap_frame R176, R178). -/
def storedWord (s : State) (c : Nat) : MapWord := (collapse s.cfg .layerMap c s.keymap.sto.toNat).1

/-- The layer change a word asks for. -/
def layerReqOf (m : MapWord) : Option LayerReq :=
  if kindOf m = some .mo then some (.mo (argTwo m))
  else if kindOf m = some .st then some (.st (argTwo m))
  else none

/-- The mode toggle a word asks for. -/
def modeReqOf (m : MapWord) : Option (BitVec 16) := if kindOf m = some .mode then some (argBits m) else none

/-- The layer changes the actuated controls ask for, in scan order. -/
def layerRequests (s : State) : List LayerReq := (actuated s).filterMap (fun c => layerReqOf (storedWord s c))

/-- The mode toggles the actuated controls ask for, in scan order. -/
def modeRequests (s : State) : List (BitVec 16) := (actuated s).filterMap (fun c => modeReqOf (storedWord s c))

/-- The mode request selected for application has a handler, or there is none (42_keymap_frame R181). -/
def ModeHandled (s : State) : Prop := ∀ v, (modeRequests s).head? = some v → v = 0

/-- KeymapState after the frame (the tables of 42_keymap_frame R184, and R173 for `PREV_A`). -/
def newKeymap (s : State) : KeymapState where
  cur := match (layerRequests s).head? with
    | none => s.keymap.sto
    | some (.mo n) => n
    | some (.st n) => n
  sto := match (layerRequests s).head? with
    | none => s.keymap.sto
    | some (.mo _) => s.keymap.sto
    | some (.st n) => n
  wasd := if (modeRequests s).head? = some 0 then !s.keymap.wasd else s.keymap.wasd
  prevA := s.pins.rotA

/-- The diagnostics of the scan: a request of a class whose slot is taken is dropped with one (42_keymap_frame R178,
R179). The two flags say which slots are taken; the list holds the controls with the words they resolve to. -/
def conflictLog : Bool → Bool → List (Nat × MapWord) → List DiagEntry
  | _, _, [] => []
  | layerTaken, modeTaken, cm :: rest =>
    (if layerTaken && (layerReqOf cm.2).isSome then [⟨.stateConflict, 0#1 ++ 0#7 ++ BitVec.ofNat 8 cm.1⟩] else [])
      ++ (if modeTaken && (modeReqOf cm.2).isSome then [⟨.stateConflict, 1#1 ++ 0#7 ++ BitVec.ofNat 8 cm.1⟩] else [])
      ++ conflictLog (layerTaken || (layerReqOf cm.2).isSome) (modeTaken || (modeReqOf cm.2).isSome) rest

/-- The diagnostics of pass 1. -/
def conflicts (s : State) : List DiagEntry :=
  conflictLog false false ((actuated s).map (fun c => (c, storedWord s c)))

/-- The directional press `d`, from the pins and the calibration (42_keymap_frame R174, R175). -/
def pressed (s : State) : Direction → Bool
  | .up => decide (s.pins.sy.toInt - s.cfg.yc.toInt > (s.cfg.ydz.toNat : Int))
  | .down => decide (s.pins.sy.toInt - s.cfg.yc.toInt < -(s.cfg.ydz.toNat : Int))
  | .left => decide (s.pins.sx.toInt - s.cfg.xc.toInt < -(s.cfg.xdz.toNat : Int))
  | .right => decide (s.pins.sx.toInt - s.cfg.xc.toInt > (s.cfg.xdz.toNat : Int))

/-- The words fed to the accumulator with KeymapState `k`, in priority order (42_keymap_frame R190 to R192). -/
def fed (s : State) (k : KeymapState) : List MapWord :=
  (if k.wasd then
      ([Direction.up, .down, .left, .right].filter (pressed s)).map
        (fun d => (collapse s.cfg .dirMap (dirIndex d) k.cur.toNat).1)
    else [])
    ++ (actuated s).map (fun c => (collapse s.cfg .layerMap c k.cur.toNat).1)

/-- The words fed in the frame of `s`. -/
def fedNow (s : State) : List MapWord := fed s (newKeymap s)

/-- The keycodes among the words, the no-event placeholder ignored (41_keymap_lookup R151). -/
def keycodes (ws : List MapWord) : List Byte :=
  ws.filterMap (fun m => if kindOf m = some .key ∧ argByte m ≠ 0 then some (argByte m) else none)

/-- The consumer codes among the words (41_keymap_lookup R152). -/
def consCodes (ws : List MapWord) : List (BitVec 16) :=
  ws.filterMap (fun m => if kindOf m = some .cons then some (argBits m) else none)

/-- Some word is `MOUSE(b)`. -/
def hasMouse (ws : List MapWord) (b : BitVec 2) : Bool :=
  ws.any (fun m => decide (kindOf m = some .mouse) && argTwo m == b)

/-- Some word is `JOYBTN`. -/
def hasJoyBtn (ws : List MapWord) : Bool := ws.any (fun m => decide (kindOf m = some .joybtn))

/-- The diagnostics of feeding the words, in the order they are fed (60_exceptions R215): a keycode is dropped when no
room is left, a consumer code when one is recorded (41_keymap_lookup R151, R152). -/
def dropLog : Nat → Bool → List MapWord → List DiagEntry
  | _, _, [] => []
  | room, taken, m :: rest =>
    (if room = 0 then (keycodes [m]).map (fun kc => ⟨.kcOverflow, 0#8 ++ kc⟩) else [])
      ++ (if taken then (consCodes [m]).map (fun code => ⟨.consConflict, code⟩) else [])
      ++ dropLog (room - (keycodes [m]).length) (taken || !(consCodes [m]).isEmpty) rest

/-- The diagnostics of pass 2. -/
def drops (s : State) : List DiagEntry := dropLog s.cfg.kcCap false (fedNow s)

/-- The entries of one class of diagnostic. -/
def ofEvent (e : DiagEvent) (l : List DiagEntry) : List DiagEntry := l.filter (fun d => decide (d.event = e))

/-- A must-be-zero bit of the command's format is 1, or the opcode is reserved (30_encoding R81, R87). -/
def IllegalCmd (w : CmdWord) : Prop :=
  opcode w = 0 ∨ 0x06#8 ≤ opcode w ∨
    ((opcode w = 2 ∨ opcode w = 3 ∨ opcode w = 4) ∧ w.extractLsb' 0 32 ≠ 0) ∨
    (opcode w = 5 ∧ (w.extractLsb' 17 7 ≠ 0 ∨ w.extractLsb' 2 14 ≠ 0))

/-- A reserved mapping word (30_encoding R96). -/
def ReservedMap (m : MapWord) : Prop :=
  (8#4 ≤ kindBits m ∧ kindBits m ≠ 0xF) ∨
    ((kindBits m = 0 ∨ kindBits m = 4 ∨ kindBits m = 0xF) ∧ argBits m ≠ 0) ∨
    (kindBits m = 1 ∧ m.extractLsb' 8 8 ≠ 0) ∨
    ((kindBits m = 3 ∨ kindBits m = 5 ∨ kindBits m = 6) ∧ m.extractLsb' 2 14 ≠ 0) ∨
    (kindBits m = 3 ∧ argTwo m = 3)

/-- The segments of the transmission, in the loop order of 40_led_commands R121. -/
def transmission (s : State) : List Segment :=
  (List.range s.cfg.nLed).flatMap (fun i =>
    [0, 1, 2].flatMap (fun k =>
      [7, 6, 5, 4, 3, 2, 1, 0].flatMap (fun j =>
        if (ledByte s i k).getLsbD j then [⟨true, .long⟩, ⟨false, .short⟩]
        else [⟨true, .short⟩, ⟨false, .long⟩])))

/-- The bits `LEDBUF[i][k][j]` in the same order (40_led_commands R124). -/
def bufferBits (s : State) : List Bool :=
  (List.range s.cfg.nLed).flatMap (fun i =>
    [0, 1, 2].flatMap (fun k => [7, 6, 5, 4, 3, 2, 1, 0].map (fun j => (ledByte s i k).getLsbD j)))

/-- The next input is the command word `w`, with the pins at `p`. -/
def Commanded (s : State) (w : CmdWord) (p : Pins) (rest : List Input) : Prop := s.inbox = .command w p :: rest

/-- The state in which an accepted command starts. -/
def accepted (s : State) (p : Pins) (rest : List Input) : State := { s with pins := p, inbox := rest }

end Sys2Proof.Spec
end

