-- ==== Sys2Proof/Certificates/Slice0/Obligations.lean ====
section
/-! DEFINITION. The statements about the model. The notions they are written in (namespace `Spec`) are in
Sys2Proof/Safety.lean. -/

open Sys2Proof Sys2Proof.Machine

/-! ### Encoding -/

/-- Words written out from 30_encoding R84 to R86 and R91, R101 decode to what they stand for. -/
def Obligations.WrittenOutWordsDecode : Prop :=
  decodeCmd 0x0102FF0000 = .ok (.lset 2 255 0 0) ∧ decodeCmd 0x0200000000 = .ok .lshow ∧
    decodeCmd 0x0300000000 = .ok .kframe ∧ decodeCmd 0x0400000000 = .ok .frame ∧
    decodeCmd 0x0501000003 = .ok (.klook .layerMap 1 3) ∧ decodeCmd 0x0500010003 = .ok (.klook .dirMap 0 3) ∧
    decodeMap 0x10004 = .ok (.key 4) ∧ decodeMap 0x60002 = .ok (.st 2) ∧ decodeMap 0xF0000 = .ok .trns

/-- Decoding the encoding of a well-formed instruction gives it back, for all 14 rows and every operand value. -/
def Obligations.DecodeOfEncodeIsIdentity : Prop :=
  ∀ i : Instr, i.wf = true → decode (encode i) = .ok i

/-- Each legal word has one meaning: what decodes is the encoding of a well-formed instruction. -/
def Obligations.EncodeOfDecodeIsIdentity : Prop :=
  ∀ (x : Word) (i : Instr), decode x = .ok i → encode i = x ∧ i.wf = true

/-- R87: exactly the illegal command words are rejected, such a word raises event 7 and does nothing else, and a
`KLOOK` out of range, which is decoded as legal, faults in execution with the same code. -/
def Obligations.IllegalCommandWordHalts : Prop :=
  (∀ w : CmdWord, (∃ e, decodeCmd w = .error e) ↔ Spec.IllegalCmd w) ∧
    (∀ (s : State) (w : CmdWord) (p : Pins) (rest : List Input), Spec.IllegalCmd w → s.cfg.wf = true → Running s →
      Spec.Commanded s w p rest →
      step s = .next { Spec.accepted s p rest with halt := ⟨true, 7, opcode w ++ w.extractLsb' 24 8⟩ }) ∧
    (∀ (s : State) (w : CmdWord) (p : Pins) (rest : List Input) (sel : Table) (ctl : Byte) (layer : LayerIx),
      decodeCmd w = .ok (.klook sel ctl layer) → s.cfg.rowSize sel ≤ ctl.toNat → s.cfg.wf = true → Running s →
      Spec.Commanded s w p rest →
      step s = .next { Spec.accepted s p rest with halt := ⟨true, 7, opcode w ++ w.extractLsb' 24 8⟩ })

/-- R96: exactly the reserved mapping words are rejected, and a configuration that holds one is refused. -/
def Obligations.ReservedMappingWordsRefused : Prop :=
  (∀ m : MapWord, mapLegal m = false ↔ Spec.ReservedMap m) ∧
    ∀ (s : State) (m : MapWord), Spec.ReservedMap m → m ∈ s.cfg.words → step s = .refused .illFormedConfig

/-! ### The step -/

/-- A step runs the decoded instruction: a command word with the pins of its acceptance, a mapping word as it is. -/
def Obligations.StepRunsDecodedInstruction : Prop :=
  ∀ (s : State) (rest : List Input) (i : Instr), s.cfg.wf = true → Running s →
    (∀ (w : CmdWord) (p : Pins), Spec.Commanded s w p rest → decodeCmd w = .ok i →
      step s = exec i { s with pins := p, inbox := rest }) ∧
    (∀ m : MapWord, s.inbox = .mapping m :: rest → decodeMap m = .ok i →
      step s = exec i { s with inbox := rest })

/-- R222: while halted the block accepts nothing; there is no step, which the model says by a fault (log 5). -/
def Obligations.HaltedBlockHasNoStep : Prop :=
  ∀ s : State, s.cfg.wf = true → s.halt.halted = true → s.inbox.head? ≠ some .reset →
    cmdReady s = false ∧ step s = .fault .halted

/-- R223: a halted block makes a step only when reset is asserted, and is then running, at the reset values. That
the inputs (`pins`, and the rest of `inbox`) are kept is log 12. -/
def Obligations.OnlyResetLeavesHalt : Prop :=
  ∀ s t : State, s.halt.halted = true → step s = .next t →
    ∃ rest, s.inbox = .reset :: rest ∧ t = { State.resetOf s.cfg with pins := s.pins, inbox := rest } ∧ Running t

/-- R56: what every element of state holds after reset, for every configuration. -/
def Obligations.ResetValues : Prop :=
  ∀ c : Config,
    (State.resetOf c).keymap = ⟨0, 0, false, false⟩ ∧
    (∀ j, (State.resetOf c).report.keys.getD j 0 = 0) ∧ (State.resetOf c).report.keys.length = c.kcCap ∧
    (State.resetOf c).report.mouse = 0 ∧ (State.resetOf c).report.joyBtn = false ∧
    (State.resetOf c).report.cons = 0 ∧ (State.resetOf c).report.wheel = 0 ∧
    (State.resetOf c).report.x = 0 ∧ (State.resetOf c).report.y = 0 ∧ (State.resetOf c).report.modifier = 0 ∧
    (State.resetOf c).lookup = ⟨0x00000, 0⟩ ∧
    (∀ i k, k < 3 → ledByte (State.resetOf c) i k = correct c (ledDefault c i) k) ∧
    (State.resetOf c).line = false ∧ (State.resetOf c).wire = [] ∧
    (State.resetOf c).halt = ⟨false, 0, 0⟩ ∧ (State.resetOf c).diag = ⟨0, 0, 0, []⟩

/-- R240: reset, asserted between steps, gives the reset state whatever the block was in. That the inputs are kept is
log 12. -/
def Obligations.ResetClearsEverything : Prop :=
  ∀ (s : State) (rest : List Input), s.cfg.wf = true → s.inbox = .reset :: rest →
    step s = .next { State.resetOf s.cfg with pins := s.pins, inbox := rest }

/-- R243: after reset the block is ready, and every command word, legal or not, makes a step. -/
def Obligations.AnyCommandMayBeFirst : Prop :=
  ∀ (c : Config) (w : CmdWord) (p : Pins), c.wf = true →
    cmdReady (State.resetOf c) = true ∧
      ∃ t, step { State.resetOf c with inbox := [.command w p] } = .next t ∧ t.cfg = c

/-- R6: what `WF_CONFIG` asks, that nothing else is run, and what `INV_L0` is. -/
def Obligations.IllFormedConfigurationRefused : Prop :=
  (∀ c : Config, c.wf = true ↔
    (∀ m ∈ c.words, mapLegal m = true) ∧
    (∀ m ∈ c.dirMap.flatten, kindOf m ≠ some .mo ∧ kindOf m ≠ some .st ∧ kindOf m ≠ some .mode) ∧
    c.gammaAt c.budget ≠ 255 ∧
    (1 ≤ c.nKeys ∧ c.nKeys ≤ 252 ∧ 1 ≤ c.kcCap ∧ c.kcCap ≤ 255 ∧ 1 ≤ c.nLed ∧ c.nLed ≤ 256 ∧
      c.gamma.length = 256 ∧ (∀ x : Channel, x = c.w0 ∨ x = c.w1 ∨ x = c.w2) ∧ c.ledDefault.length = c.nLed ∧
      c.layerMap.length = 4 ∧ (∀ row ∈ c.layerMap, row.length = c.nKeys + 4) ∧
      c.dirMap.length = 4 ∧ (∀ row ∈ c.dirMap, row.length = 4))) ∧
  (∀ c : Config, c.invL0 = true ↔ ∀ ix, ix < c.nKeys + 4 → kindOf (c.word .layerMap 0 ix) ≠ some .trns) ∧
  ∀ s : State, s.cfg.wf = false → step s = .refused .illFormedConfig

/-- R54: no step writes the configuration. -/
def Obligations.ConfigurationNeverChanges : Prop :=
  ∀ s t : State, step s = .next t → t.cfg = s.cfg

/-- R235 and log 4: with nothing presented a running block idles, with all state held. -/
def Obligations.IdleBlockHoldsState : Prop :=
  ∀ s : State, s.cfg.wf = true → Running s → s.inbox = [] → step s = .next s

/-! ### The LED unit -/

/-- R110, R111: `LSET` in range stores the corrected colour in its entry and changes no other byte and nothing else;
out of range it halts with code 4 and changes nothing else. -/
def Obligations.LsetStoresCorrectedColour : Prop :=
  ∀ (s : State) (idx r g b : Byte),
    (idx.toNat < s.cfg.nLed →
      ∃ m, exec (.lset idx r g b) s = .next { s with ledbuf := m } ∧
        ∀ i k, k < 3 → ledByte { s with ledbuf := m } i k =
          if i = idx.toNat then bitrev8 (s.cfg.gammaAt (scale s.cfg (channelOf ⟨r, g, b⟩ (wireChannel s.cfg k))))
          else ledByte s i k) ∧
    (s.cfg.nLed ≤ idx.toNat →
      exec (.lset idx r g b) s = .next { s with halt := ⟨true, 4, 0#8 ++ idx⟩ })

/-- R112: power scaling is the exact floor of an exact product, within the budget, exact at the ends, and
non-decreasing. -/
def Obligations.PowerScalingIsExactFloor : Prop :=
  ∀ (cfg : Config) (c d : Byte),
    c.toNat * cfg.budget.toNat ≤ 65025 ∧ (scale cfg c).toNat = c.toNat * cfg.budget.toNat / 255 ∧ (scale cfg c).toNat ≤ cfg.budget.toNat ∧
    scale cfg 0 = 0 ∧ scale cfg 255 = cfg.budget ∧
    (c.toNat ≤ d.toNat → (scale cfg c).toNat ≤ (scale cfg d).toNat)

/-- R115: white is clamped to the budget, and no byte stored for white is `0xFF`. -/
def Obligations.WhiteIsClampedToBudget : Prop :=
  ∀ (cfg : Config) (k : Nat),
    correct cfg ⟨255, 255, 255⟩ k = bitrev8 (cfg.gammaAt cfg.budget) ∧
    correct cfg ⟨cfg.budget, cfg.budget, cfg.budget⟩ k = bitrev8 (cfg.gammaAt (scale cfg cfg.budget)) ∧
    (cfg.wf = true → correct cfg ⟨255, 255, 255⟩ k ≠ 0xFF) ∧
    (∀ v : Byte, bitrev8 v = 0xFF → v = 0xFF)

/-- R10, R116: bit reversal, bit by bit, and that it is an involution and a bijection. -/
def Obligations.BitReversalIsInvolution : Prop :=
  (∀ (v : Byte) (j : Nat), j < 8 → (bitrev8 v).getLsbD j = v.getLsbD (7 - j)) ∧
    (∀ v : Byte, bitrev8 (bitrev8 v) = v) ∧ Function.Bijective bitrev8 ∧
    bitrev8 0x00 = 0x00 ∧ bitrev8 0xFF = 0xFF ∧ bitrev8 0x01 = 0x80 ∧ bitrev8 0x40 = 0x02 ∧
    bitrev8 0x0F = 0xF0 ∧ bitrev8 0x12 = 0x48 ∧ bitrev8 0xA5 = 0xA5

/-- R121: `LSHOW` appends the cells of every bit in the loop order, then the latch, leaves the line low, and changes
nothing else. -/
def Obligations.LshowTransmitsBuffer : Prop :=
  ∀ s : State, exec .lshow s =
    .next { s with line := false, wire := s.wire ++ Spec.transmission s ++ [⟨false, .reset⟩] }

/-- R124: what the symbols are, and that, seen as symbols, one `LSHOW` appends the `24 × N_LED` buffer bits and one
latch. The premise is a clause of `Inv`. -/
def Obligations.LshowSymbolView : Prop :=
  symbolView [⟨true, .long⟩, ⟨false, .short⟩] = some [.bit true] ∧
  symbolView [⟨true, .short⟩, ⟨false, .long⟩] = some [.bit false] ∧ symbolView [⟨false, .reset⟩] = some [.latch] ∧
  ∀ (s : State) (v : List Symbol), symbolView s.wire = some v →
    (Spec.bufferBits s).length = 24 * s.cfg.nLed ∧
    ∃ t, exec .lshow s = .next t ∧
      symbolView t.wire = some (v ++ (Spec.bufferBits s).map Symbol.bit ++ [Symbol.latch])

/-- R73: transmission is unconditional: a second `LSHOW` sends the same segments again. -/
def Obligations.SecondLshowSendsSameBits : Prop :=
  ∀ s : State, ∃ t u g, exec .lshow s = .next t ∧ exec .lshow t = .next u ∧
    t.wire = s.wire ++ g ∧ u.wire = t.wire ++ g

/-! ### Lookup -/

/-- R143: the fallback law, and that the result is the nearest word at or below the start that is not transparent. -/
def Obligations.CollapseFallsBackToNearest : Prop :=
  ∀ (cfg : Config) (t : Table) (ix l0 : Nat),
    (0 < l0 → kindOf (cfg.word t l0 ix) = some .trns → collapse cfg t ix l0 = collapse cfg t ix (l0 - 1)) ∧
    (l0 = 0 ∨ kindOf (cfg.word t l0 ix) ≠ some .trns → collapse cfg t ix l0 = (cfg.word t l0 ix, l0)) ∧
    ∃ l ≤ l0, collapse cfg t ix l0 = (cfg.word t l ix, l) ∧
      (∀ l', l < l' → l' ≤ l0 → kindOf (cfg.word t l' ix) = some .trns) ∧
      (l = 0 ∨ kindOf (cfg.word t l ix) ≠ some .trns)

/-- R142: under `INV_L0` no lookup of a control returns a transparent word. -/
def Obligations.Layer0InvariantStopsTransparency : Prop :=
  ∀ (cfg : Config) (ix l0 : Nat), cfg.invL0 = true → ix < cfg.nKeys + 4 →
    kindOf (collapse cfg .layerMap ix l0).1 ≠ some .trns

/-- R146, R147: `KLOOK` in range keeps the word and the layer of the lookup and changes nothing else; out of range it
halts with code 7 and changes nothing else. -/
def Obligations.KlookRecordsLookup : Prop :=
  ∀ (s : State) (sel : Table) (ctl : Byte) (layer : LayerIx),
    (ctl.toNat < (match sel with | .layerMap => s.cfg.nKeys + 4 | .dirMap => 4) →
      exec (.klook sel ctl layer) s = .next { s with
        lookup := ⟨(collapse s.cfg sel ctl.toNat layer.toNat).1,
          BitVec.ofNat 2 (collapse s.cfg sel ctl.toNat layer.toNat).2⟩ } ∧
      (collapse s.cfg sel ctl.toNat layer.toNat).2 < 4) ∧
    ((match sel with | .layerMap => s.cfg.nKeys + 4 | .dirMap => 4) ≤ ctl.toNat →
      exec (.klook sel ctl layer) s = .next { s with halt := ⟨true, 7, 0x05#8 ++ ctl⟩ })

/-! ### The accumulator -/

/-- R151: `KEY(kc)`. -/
def Obligations.KeyIsAppendedUpToCapacity : Prop :=
  ∀ (s : State) (kc : Byte),
    (kc = 0 → exec (.key kc) s = .next s) ∧
    (kc ≠ 0 → s.frame.accKeys.length < s.cfg.kcCap →
      exec (.key kc) s = .next { s with frame := { s.frame with accKeys := s.frame.accKeys ++ [kc] } }) ∧
    (kc ≠ 0 → s.cfg.kcCap ≤ s.frame.accKeys.length →
      exec (.key kc) s = .next { s with diag := { s.diag with
        ovf := s.diag.ovf + 1, log := s.diag.log ++ [⟨.kcOverflow, 0#8 ++ kc⟩] } })

/-- R152: `CONS(code)`: first wins. -/
def Obligations.FirstConsumerCodeWins : Prop :=
  ∀ (s : State) (code : BitVec 16),
    (s.frame.accCons = none →
      exec (.cons code) s = .next { s with frame := { s.frame with accCons := some code } }) ∧
    (s.frame.accCons ≠ none →
      exec (.cons code) s = .next { s with diag := { s.diag with
        cons := s.diag.cons + 1, log := s.diag.log ++ [⟨.consConflict, code⟩] } })

/-- R153, R154: the button flags, each set and no other touched; the reserved `MOUSE(3)` stops by name (R96; that the
stop is a refusal of `exec` is log 17). -/
def Obligations.ButtonFlagsAreSet : Prop :=
  ∀ s : State,
    exec (.mouse 0) s = .next { s with frame := { s.frame with accMouse := s.frame.accMouse ||| 1 } } ∧
    exec (.mouse 1) s = .next { s with frame := { s.frame with accMouse := s.frame.accMouse ||| 2 } } ∧
    exec (.mouse 2) s = .next { s with frame := { s.frame with accMouse := s.frame.accMouse ||| 4 } } ∧
    exec (.mouse 3) s = .refused .reservedMapping ∧
    exec .joybtn s = .next { s with frame := { s.frame with accJoy := true } }

/-- R155, R156: `NOOP`, and `TRNS` where a lookup returns it, do nothing. -/
def Obligations.InertMappingsDoNothing : Prop :=
  ∀ s : State, exec .noop s = .next s ∧ exec .trns s = .next s

/-- R150, R157: `Add` of a legal word does what the word's kind does in the accumulator, and nothing for a
state-affecting kind. -/
def Obligations.AddDispatchesOnKind : Prop :=
  ∀ (s : State) (m : MapWord) (i : Instr), decodeMap m = .ok i →
    ((∃ n, i = .mo n) ∨ (∃ n, i = .st n) ∨ (∃ v, i = .mode v) → add s m = s) ∧
    ((∀ n, i ≠ .mo n) → (∀ n, i ≠ .st n) → (∀ v, i ≠ .mode v) → exec i s = .next (add s m))

/-! ### Layers and mode -/

/-- R182, R183: `MO(n)` writes the current layer only, `ST(n)` both layers. -/
def Obligations.LayerChangesApply : Prop :=
  ∀ (s : State) (n : LayerIx),
    exec (.mo n) s = .next { s with keymap := { s.keymap with cur := n } } ∧
    exec (.st n) s = .next { s with keymap := { s.keymap with cur := n, sto := n } }

/-- R181: `MODE(0)` inverts `WASD`; every other variant halts with code 3 and changes nothing else. -/
def Obligations.ModeTogglesOrHalts : Prop :=
  ∀ (s : State) (v : BitVec 16),
    (v = 0 → exec (.mode v) s = .next { s with keymap := { s.keymap with wasd := !s.keymap.wasd } }) ∧
    (v ≠ 0 → exec (.mode v) s = .next { s with halt := ⟨true, 3, v⟩ })

/-- R184: the state machine of a frame: the first layer request and the first mode request in scan order apply. -/
def Obligations.KframeStateMachine : Prop :=
  ∀ s : State, s.cfg.wf = true →
    ∃ t, exec .kframe s = .next t ∧ t.keymap = Spec.newKeymap s ∧
      (Spec.ModeHandled s → t.halt = s.halt) ∧
      (∀ v, (Spec.modeRequests s).head? = some v → v ≠ 0 → t.halt = ⟨true, 3, v⟩) ∧
      ((∀ n, (Spec.layerRequests s).head? ≠ some (.mo n)) → t.keymap.cur = t.keymap.sto)

/-- A momentary layer does not persist: a frame in which no actuated control asks for a layer ends at the stored layer,
whatever the current layer was. -/
def Obligations.MomentaryLayerDecays : Prop :=
  ∀ s : State, s.cfg.wf = true → Spec.layerRequests s = [] →
    ∃ t, exec .kframe s = .next t ∧ t.keymap.cur = s.keymap.sto ∧ t.keymap.sto = s.keymap.sto

/-- A held mode toggle acts in every frame (R250): two frames on the same pins invert `WASD` and then restore it. A
momentary layer may be held with it, since it leaves the stored layer, where pass 1 looks, alone (R251); only a frame
whose layer request is an `ST`, which moves that layer, is another case. -/
def Obligations.HeldToggleActsEveryFrame : Prop :=
  ∀ s : State, s.cfg.wf = true → (∀ n, (Spec.layerRequests s).head? ≠ some (.st n)) →
    (Spec.modeRequests s).head? = some 0 →
    ∃ t u, exec .kframe s = .next t ∧ exec .kframe t = .next u ∧
      t.keymap = { s.keymap with cur := t.keymap.cur, wasd := !s.keymap.wasd, prevA := s.pins.rotA } ∧
      u.keymap = { t.keymap with wasd := s.keymap.wasd } ∧
      (Spec.layerRequests s = [] → t.keymap.cur = s.keymap.sto) ∧
      (∀ n, (Spec.layerRequests s).head? = some (.mo n) → t.keymap.cur = n)

/-- R178, R179 and R216: the diagnostics of a frame. Every later request of a class is dropped with one diagnostic of
code 2, in scan order and before the others; then, in the order the words are fed (R215), the keycodes beyond the
capacity and the consumer codes after the first each give one; the counters are the numbers of the frame's diagnostics
and do not wrap. -/
def Obligations.KframeDiagnostics : Prop :=
  ∀ s : State, s.cfg.wf = true →
    ∃ t log2, exec .kframe s = .next t ∧ t.diag.log = s.diag.log ++ Spec.conflicts s ++ log2 ∧
      (∀ e ∈ Spec.conflicts s, e.event = .stateConflict) ∧ Spec.ofEvent .stateConflict log2 = [] ∧
      t.diag.conflict.toNat = (Spec.conflicts s).length ∧
      t.diag.ovf.toNat = (Spec.ofEvent .kcOverflow log2).length ∧
      t.diag.cons.toNat = (Spec.ofEvent .consConflict log2).length ∧
      (Spec.ModeHandled s → log2 = Spec.drops s ∧
        Spec.ofEvent .kcOverflow log2 =
          ((Spec.keycodes (Spec.fedNow s)).drop s.cfg.kcCap).map (fun kc => ⟨.kcOverflow, 0#8 ++ kc⟩) ∧
        Spec.ofEvent .consConflict log2 =
          ((Spec.consCodes (Spec.fedNow s)).drop 1).map (fun code => ⟨.consConflict, code⟩)) ∧
      (¬ Spec.ModeHandled s → log2 = [])

/-- R179: the scan emits one `STATE_CONFLICT` for every request of a class but the first: as many entries of the
diagnostic log, and as much in `DIAG_CONFLICT`, after every frame, completed or halted. -/
def Obligations.ConflictsCountLaterRequests : Prop :=
  ∀ s : State, s.cfg.wf = true → ∃ t emitted, exec .kframe s = .next t ∧ t.diag.log = s.diag.log ++ emitted ∧
    t.diag.conflict.toNat = ((Spec.layerRequests s).length - 1) + ((Spec.modeRequests s).length - 1) ∧
    (Spec.ofEvent .stateConflict emitted).length =
      ((Spec.layerRequests s).length - 1) + ((Spec.modeRequests s).length - 1)

/-! ### The report -/

/-- R190 to R196: the report of a completed frame, from the words fed in priority order: the first `KC_CAP` keycodes
and then no-event, the OR of the mouse flags, the joystick button, the first consumer code, the wheel step, the
position, the modifier byte. -/
def Obligations.KframeReport : Prop :=
  ∀ s : State, s.cfg.wf = true → Spec.ModeHandled s →
    ∃ t, exec .kframe s = .next t ∧
      t.report.keys = (Spec.keycodes (Spec.fedNow s)).take s.cfg.kcCap ++
        List.replicate (s.cfg.kcCap - (Spec.keycodes (Spec.fedNow s)).length) 0 ∧
      (∀ b : BitVec 2, b ≠ 3 → t.report.mouse.getLsbD b.toNat = Spec.hasMouse (Spec.fedNow s) b) ∧
      t.report.joyBtn = Spec.hasJoyBtn (Spec.fedNow s) ∧
      t.report.cons = (Spec.consCodes (Spec.fedNow s)).head?.getD 0 ∧
      t.report.wheel = (if s.pins.rotA = s.keymap.prevA then 0x00
        else if s.pins.rotB = s.pins.rotA then 0x01 else 0xFF) ∧
      t.report.x.toInt = (if t.keymap.wasd then 0 else s.pins.sx.toInt - s.cfg.xc.toInt) ∧
      t.report.y.toInt = (if t.keymap.wasd then 0 else s.pins.sy.toInt - s.cfg.yc.toInt) ∧
      t.report.modifier = 0

/-- The capacity property of the source (S4): with `n` keycodes too many, every slot is populated, with the first
`KC_CAP` keycodes, and there are exactly `n` overflow diagnostics. -/
def Obligations.OverflowKeepsTheFirstKeycodes : Prop :=
  ∀ (s : State) (n : Nat), s.cfg.wf = true → Spec.ModeHandled s →
    (Spec.keycodes (Spec.fedNow s)).length = s.cfg.kcCap + n →
    ∃ t, exec .kframe s = .next t ∧ t.report.keys = (Spec.keycodes (Spec.fedNow s)).take s.cfg.kcCap ∧
      t.report.keys.length = s.cfg.kcCap ∧ (∀ k ∈ t.report.keys, k ≠ 0) ∧ t.diag.ovf.toNat = n

/-- R197: a frame that halts: the phase is recorded, the layer request is applied, the mode is not, the report
registers and everything a later line would write keep their values. -/
def Obligations.HaltingKframeKeepsReport : Prop :=
  ∀ (s : State) (v : BitVec 16), s.cfg.wf = true → (Spec.modeRequests s).head? = some v → v ≠ 0 →
    ∃ t, exec .kframe s = .next t ∧ t.halt = ⟨true, 3, v⟩ ∧ t.report = s.report ∧
      t.keymap = { Spec.newKeymap s with wasd := s.keymap.wasd } ∧
      t.diag.log = s.diag.log ++ Spec.conflicts s ∧ t.diag.ovf = 0 ∧ t.diag.cons = 0 ∧
      t.diag.conflict.toNat = (Spec.conflicts s).length

/-- R170: what `KFRAME` does not write. Every byte of the LED buffer reads as before; the transients are discarded. -/
def Obligations.KframeLeavesLedUnitAlone : Prop :=
  ∀ s : State, s.cfg.wf = true →
    ∃ t, exec .kframe s = .next t ∧ t.cfg = s.cfg ∧ t.lookup = s.lookup ∧ t.ledbuf = s.ledbuf ∧
      (∀ i k, ledByte t i k = ledByte s i k) ∧ t.line = s.line ∧ t.wire = s.wire ∧ t.pins = s.pins ∧
      t.inbox = s.inbox ∧ TransientsDiscarded t

/-- R173: the wheel step, from phase A's change and phase B at that instant. -/
def Obligations.RotaryDecode : Prop :=
  ∀ s : State, (rotary s).keymap = { s.keymap with prevA := s.pins.rotA } ∧
    (s.pins.rotA = s.keymap.prevA → (rotary s).frame.wheel = 0) ∧
    (s.pins.rotA ≠ s.keymap.prevA → s.pins.rotB ≠ s.pins.rotA → (rotary s).frame.wheel = -1) ∧
    (s.pins.rotA ≠ s.keymap.prevA → s.pins.rotB = s.pins.rotA → (rotary s).frame.wheel = 1)

/-- R174, R175: centring is exact, the comparisons are strict, and the two directions of an axis exclude each other. -/
def Obligations.StickDirections : Prop :=
  ∀ s : State,
    (stick s).frame.cx = s.pins.sx.toInt - s.cfg.xc.toInt ∧ (stick s).frame.cy = s.pins.sy.toInt - s.cfg.yc.toInt ∧
    -65535 ≤ (stick s).frame.cx ∧ (stick s).frame.cx ≤ 65535 ∧
    -65535 ≤ (stick s).frame.cy ∧ (stick s).frame.cy ≤ 65535 ∧
    ((stick s).frame.up = true ↔ (stick s).frame.cy > (s.cfg.ydz.toNat : Int)) ∧
    ((stick s).frame.down = true ↔ (stick s).frame.cy < -(s.cfg.ydz.toNat : Int)) ∧
    ((stick s).frame.left = true ↔ (stick s).frame.cx < -(s.cfg.xdz.toNat : Int)) ∧
    ((stick s).frame.right = true ↔ (stick s).frame.cx > (s.cfg.xdz.toNat : Int)) ∧
    ¬ ((stick s).frame.up = true ∧ (stick s).frame.down = true) ∧
    ¬ ((stick s).frame.left = true ∧ (stick s).frame.right = true)

/-- R198: `FRAME` has exactly the effect of `KFRAME` followed by `LSHOW`; if the `KFRAME` part halts nothing is
transmitted. -/
def Obligations.FrameIsKframeThenLshow : Prop :=
  ∀ s : State, s.cfg.wf = true → Running s →
    (Spec.ModeHandled s → ∃ t u, exec .kframe s = .next t ∧ Running t ∧ exec .lshow t = .next u ∧
      exec .frame s = .next u) ∧
    (¬ Spec.ModeHandled s → ∃ t, exec .kframe s = .next t ∧ ¬ Running t ∧ exec .frame s = .next t ∧
      t.wire = s.wire)

/-! ### Rules of the whole machine -/

/-- R212: which commands can raise what. -/
def Obligations.EventsOfEachCommand : Prop :=
  ∀ (s t : State) (w : CmdWord) (p : Pins) (rest : List Input),
    Running s → Spec.Commanded s w p rest → step s = .next t →
    (∀ idx r g b, decodeCmd w = .ok (.lset idx r g b) → t.diag = s.diag ∧ (¬ Running t → t.halt.code = 4)) ∧
    (decodeCmd w = .ok .lshow → t.diag = s.diag ∧ Running t) ∧
    (decodeCmd w = .ok .kframe ∨ decodeCmd w = .ok .frame → ¬ Running t → t.halt.code = 3) ∧
    (∀ sel ctl layer, decodeCmd w = .ok (.klook sel ctl layer) →
      t.diag = s.diag ∧ (¬ Running t → t.halt.code = 7)) ∧
    ((∃ e, decodeCmd w = .error e) → t.diag = s.diag ∧ ¬ Running t ∧ t.halt.code = 7)

/-- `STO_LAYER` changes by a command only when it is a frame command and an actuated control resolves, at the stored
layer, to `ST` of the new layer; `WASD` only when it is a frame command and one resolves to `MODE(0)`. -/
def Obligations.LayerAndModeChangeOnlyByMapping : Prop :=
  ∀ (s t : State) (w : CmdWord) (p : Pins) (rest : List Input),
    Spec.Commanded s w p rest → step s = .next t →
    (t.keymap.sto ≠ s.keymap.sto →
      (decodeCmd w = .ok .kframe ∨ decodeCmd w = .ok .frame) ∧
      ∃ c ∈ actuated (Spec.accepted s p rest),
        Spec.layerReqOf (Spec.storedWord s c) = some (.st t.keymap.sto)) ∧
    (t.keymap.wasd ≠ s.keymap.wasd →
      (decodeCmd w = .ok .kframe ∨ decodeCmd w = .ok .frame) ∧
      ∃ c ∈ actuated (Spec.accepted s p rest), Spec.modeReqOf (Spec.storedWord s c) = some 0)

/-- R30, R221: the report registers change only by reset or by a frame command that did not halt. -/
def Obligations.OnlyCompletedFramesWriteReport : Prop :=
  ∀ s t : State, step s = .next t → t.report ≠ s.report → (∃ rest, s.inbox = .reset :: rest) ∨
    (Running t ∧ ∃ w p rest, Spec.Commanded s w p rest ∧ (decodeCmd w = .ok .kframe ∨ decodeCmd w = .ok .frame))

/-- R38: the lookup result changes only by reset or by a `KLOOK` in range. -/
def Obligations.OnlyKlookWritesLookup : Prop :=
  ∀ s t : State, step s = .next t → t.lookup ≠ s.lookup → (∃ rest, s.inbox = .reset :: rest) ∨
    (Running t ∧ ∃ w p rest sel ctl layer, Spec.Commanded s w p rest ∧
      decodeCmd w = .ok (.klook sel ctl layer) ∧ ctl.toNat < s.cfg.rowSize sel)

/-- R40: a byte of the LED buffer changes only by reset or by an `LSET` of its entry. -/
def Obligations.OnlyLsetWritesLedBuffer : Prop :=
  ∀ (s t : State) (i k : Nat), k < 3 → step s = .next t → ledByte t i k ≠ ledByte s i k →
    (∃ rest, s.inbox = .reset :: rest) ∨
    ∃ w p rest idx r g b, Spec.Commanded s w p rest ∧ decodeCmd w = .ok (.lset idx r g b) ∧ idx.toNat = i

/-- R44, R48: the wire trace and the diagnostic log are append-only but for reset, and the wire moves only in `LSHOW`
and `FRAME`. -/
def Obligations.TracesAreAppendOnly : Prop :=
  ∀ s t : State, step s = .next t → (∃ rest, s.inbox = .reset :: rest) ∨
    ((∃ g, t.diag.log = s.diag.log ++ g) ∧ ∃ g, t.wire = s.wire ++ g ∧
      (g ≠ [] → ∃ w p rest, Spec.Commanded s w p rest ∧
        (decodeCmd w = .ok .lshow ∨ decodeCmd w = .ok .frame)))

/-- Between commands the transients are discarded (R50): every step but one on a single mapping word (log 3) keeps
that. -/
def Obligations.CommandsDiscardTransients : Prop :=
  ∀ s t : State, TransientsDiscarded s → (∀ m rest, s.inbox ≠ .mapping m :: rest) → step s = .next t →
    TransientsDiscarded t

/-- The state after reset has the invariant, for every well-formed configuration. -/
def Obligations.ResetHasInvariant : Prop :=
  (∀ c : Config, c.wf = true → Inv (State.resetOf c)) ∧ Inv State.reset

/-- Every step keeps the invariant: the LED buffer canonical, the keycode array packed, the accumulator bounded, the
report registers in range, the halt registers consistent, the line low, the wire a sequence of symbols. -/
def Obligations.StepKeepsInvariant : Prop :=
  ∀ s t : State, Inv s → step s = .next t → Inv t

/-! ### The read port -/

/-- R66: the address map of the read port. -/
def Obligations.ReadPortMap : Prop :=
  ∀ s : State,
    ((regRead 0x000 s).extractLsb' 0 1 = BitVec.ofBool s.halt.halted ∧ (regRead 0x000 s).extractLsb' 1 3 = 0 ∧
      (regRead 0x000 s).extractLsb' 4 4 = s.halt.code ∧ (regRead 0x000 s).extractLsb' 8 8 = 0 ∧
      (regRead 0x000 s).extractLsb' 16 16 = s.halt.info) ∧
    ((regRead 0x001 s).extractLsb' 0 2 = s.keymap.cur ∧ (regRead 0x001 s).extractLsb' 2 2 = s.keymap.sto ∧
      (regRead 0x001 s).extractLsb' 4 1 = BitVec.ofBool s.keymap.wasd ∧
      (regRead 0x001 s).extractLsb' 5 1 = BitVec.ofBool s.keymap.prevA ∧
      (regRead 0x001 s).extractLsb' 6 26 = 0) ∧
    ((regRead 0x002 s).extractLsb' 0 16 = s.diag.ovf ∧ (regRead 0x002 s).extractLsb' 16 16 = s.diag.conflict) ∧
    ((regRead 0x003 s).extractLsb' 0 16 = s.diag.cons ∧ (regRead 0x003 s).extractLsb' 16 16 = 0) ∧
    ((regRead 0x004 s).extractLsb' 0 20 = s.lookup.res ∧ (regRead 0x004 s).extractLsb' 20 4 = 0 ∧
      (regRead 0x004 s).extractLsb' 24 2 = s.lookup.layer ∧ (regRead 0x004 s).extractLsb' 26 6 = 0) ∧
    ((regRead 0x008 s).extractLsb' 0 3 = s.report.mouse ∧ (regRead 0x008 s).extractLsb' 3 5 = 0 ∧
      (regRead 0x008 s).extractLsb' 8 1 = BitVec.ofBool s.report.joyBtn ∧ (regRead 0x008 s).extractLsb' 9 7 = 0 ∧
      (regRead 0x008 s).extractLsb' 16 8 = s.report.wheel ∧
      (regRead 0x008 s).extractLsb' 24 8 = s.report.modifier) ∧
    ((regRead 0x009 s).extractLsb' 0 16 = s.report.cons ∧ (regRead 0x009 s).extractLsb' 16 16 = 0) ∧
    regRead 0x00A s = s.report.x ∧ regRead 0x00B s = s.report.y ∧
    (∀ q t : Nat, q < 64 → t < 4 → (regRead (BitVec.ofNat 12 (0x010 + q)) s).extractLsb' (8 * t) 8 =
      if 4 * q + t < s.cfg.kcCap then s.report.keys.getD (4 * q + t) 0 else 0) ∧
    (∀ i : Nat, i < s.cfg.nLed → i < 256 →
      (∀ k, k < 3 → (regRead (BitVec.ofNat 12 (0x100 + i)) s).extractLsb' (8 * k) 8 = ledByte s i k) ∧
      (regRead (BitVec.ofNat 12 (0x100 + i)) s).extractLsb' 24 8 = 0)

/-- R67: every unmapped address reads zero. -/
def Obligations.UnmappedReadsAreZero : Prop :=
  ∀ (s : State) (a : BitVec 12),
    (5 ≤ a.toNat ∧ a.toNat ≤ 7) ∨ (0x00C ≤ a.toNat ∧ a.toNat ≤ 0x00F) ∨ (0x050 ≤ a.toNat ∧ a.toNat ≤ 0x0FF) ∨
      0x100 + s.cfg.nLed ≤ a.toNat → regRead a s = 0

/-! ### The scan -/

/-- R177: the scan is over the keys by index, then `JOY`, then `SCR`, and takes the controls whose snapshot bit is 1;
`ROTA` and `ROTB` are not in it. Pass 1 looks these controls up, and pass 2 feeds these after the directions, each in
that order. -/
def Obligations.ScanTakesActuatedControlsInOrder : Prop :=
  ∀ s : State,
    (∀ c, c ∈ scanOrder s.cfg ↔ c < s.cfg.nKeys ∨ c = joyIndex s.cfg ∨ c = scrIndex s.cfg) ∧
    (scanOrder s.cfg).Pairwise (· < ·) ∧
    s.cfg.nKeys ≤ joyIndex s.cfg ∧ joyIndex s.cfg < scrIndex s.cfg ∧
    (∀ c, c ∈ actuated s ↔ c ∈ scanOrder s.cfg ∧ s.pins.act.getLsbD c = true) ∧
    (actuated s).Pairwise (· < ·) ∧ rotaIndex s.cfg ∉ actuated s ∧ rotbIndex s.cfg ∉ actuated s ∧
    (scanned s).map Prod.fst = actuated s ∧
    ∃ dirs, fedWords s = dirs ++ (actuated s).map (resolve s .layerMap) ∧ (s.keymap.wasd = false → dirs = [])

/-- A frame reads no snapshot bit but those of the scan (R177): other bits of the model's `act` (log 6) change nothing
but themselves. -/
def Obligations.UnscannedBitsHaveNoEffect : Prop :=
  ∀ (s : State) (v : BitVec 254), s.cfg.wf = true →
    (∀ c, c < s.cfg.nKeys + 2 → v.getLsbD c = s.pins.act.getLsbD c) →
    ∃ t, exec .kframe s = .next t ∧
      exec .kframe { s with pins := { s.pins with act := v } } = .next { t with pins := { t.pins with act := v } }
end

