-- ==== Sys2Proof/Laws/State.lean ====
section
/-! SUPPORT. One lemma per field per update of the state, and per field of the state after reset. -/

namespace Sys2Proof.Machine

variable (s : State)

/-! ### `setKeymap` -/

section
variable (k : KeymapState)

@[simp] theorem State.setKeymap_cfg : (s.setKeymap k).cfg = s.cfg := rfl
@[simp] theorem State.setKeymap_keymap : (s.setKeymap k).keymap = k := rfl
@[simp] theorem State.setKeymap_report : (s.setKeymap k).report = s.report := rfl
@[simp] theorem State.setKeymap_lookup : (s.setKeymap k).lookup = s.lookup := rfl
@[simp] theorem State.setKeymap_ledbuf : (s.setKeymap k).ledbuf = s.ledbuf := rfl
@[simp] theorem State.setKeymap_line : (s.setKeymap k).line = s.line := rfl
@[simp] theorem State.setKeymap_wire : (s.setKeymap k).wire = s.wire := rfl
@[simp] theorem State.setKeymap_halt : (s.setKeymap k).halt = s.halt := rfl
@[simp] theorem State.setKeymap_diag : (s.setKeymap k).diag = s.diag := rfl
@[simp] theorem State.setKeymap_frame : (s.setKeymap k).frame = s.frame := rfl
@[simp] theorem State.setKeymap_pins : (s.setKeymap k).pins = s.pins := rfl
@[simp] theorem State.setKeymap_inbox : (s.setKeymap k).inbox = s.inbox := rfl

end

/-! ### `setReport` -/

section
variable (r : Report)

@[simp] theorem State.setReport_cfg : (s.setReport r).cfg = s.cfg := rfl
@[simp] theorem State.setReport_keymap : (s.setReport r).keymap = s.keymap := rfl
@[simp] theorem State.setReport_report : (s.setReport r).report = r := rfl
@[simp] theorem State.setReport_lookup : (s.setReport r).lookup = s.lookup := rfl
@[simp] theorem State.setReport_ledbuf : (s.setReport r).ledbuf = s.ledbuf := rfl
@[simp] theorem State.setReport_line : (s.setReport r).line = s.line := rfl
@[simp] theorem State.setReport_wire : (s.setReport r).wire = s.wire := rfl
@[simp] theorem State.setReport_halt : (s.setReport r).halt = s.halt := rfl
@[simp] theorem State.setReport_diag : (s.setReport r).diag = s.diag := rfl
@[simp] theorem State.setReport_frame : (s.setReport r).frame = s.frame := rfl
@[simp] theorem State.setReport_pins : (s.setReport r).pins = s.pins := rfl
@[simp] theorem State.setReport_inbox : (s.setReport r).inbox = s.inbox := rfl

end

/-! ### `setLookup` -/

section
variable (l : LookupResult)

@[simp] theorem State.setLookup_cfg : (s.setLookup l).cfg = s.cfg := rfl
@[simp] theorem State.setLookup_keymap : (s.setLookup l).keymap = s.keymap := rfl
@[simp] theorem State.setLookup_report : (s.setLookup l).report = s.report := rfl
@[simp] theorem State.setLookup_lookup : (s.setLookup l).lookup = l := rfl
@[simp] theorem State.setLookup_ledbuf : (s.setLookup l).ledbuf = s.ledbuf := rfl
@[simp] theorem State.setLookup_line : (s.setLookup l).line = s.line := rfl
@[simp] theorem State.setLookup_wire : (s.setLookup l).wire = s.wire := rfl
@[simp] theorem State.setLookup_halt : (s.setLookup l).halt = s.halt := rfl
@[simp] theorem State.setLookup_diag : (s.setLookup l).diag = s.diag := rfl
@[simp] theorem State.setLookup_frame : (s.setLookup l).frame = s.frame := rfl
@[simp] theorem State.setLookup_pins : (s.setLookup l).pins = s.pins := rfl
@[simp] theorem State.setLookup_inbox : (s.setLookup l).inbox = s.inbox := rfl

end

/-! ### `setLedbuf` -/

section
variable (m : List Host.Cell)

@[simp] theorem State.setLedbuf_cfg : (s.setLedbuf m).cfg = s.cfg := rfl
@[simp] theorem State.setLedbuf_keymap : (s.setLedbuf m).keymap = s.keymap := rfl
@[simp] theorem State.setLedbuf_report : (s.setLedbuf m).report = s.report := rfl
@[simp] theorem State.setLedbuf_lookup : (s.setLedbuf m).lookup = s.lookup := rfl
@[simp] theorem State.setLedbuf_ledbuf : (s.setLedbuf m).ledbuf = m := rfl
@[simp] theorem State.setLedbuf_line : (s.setLedbuf m).line = s.line := rfl
@[simp] theorem State.setLedbuf_wire : (s.setLedbuf m).wire = s.wire := rfl
@[simp] theorem State.setLedbuf_halt : (s.setLedbuf m).halt = s.halt := rfl
@[simp] theorem State.setLedbuf_diag : (s.setLedbuf m).diag = s.diag := rfl
@[simp] theorem State.setLedbuf_frame : (s.setLedbuf m).frame = s.frame := rfl
@[simp] theorem State.setLedbuf_pins : (s.setLedbuf m).pins = s.pins := rfl
@[simp] theorem State.setLedbuf_inbox : (s.setLedbuf m).inbox = s.inbox := rfl

end

/-! ### `setLine` -/

section
variable (b : Bool)

@[simp] theorem State.setLine_cfg : (s.setLine b).cfg = s.cfg := rfl
@[simp] theorem State.setLine_keymap : (s.setLine b).keymap = s.keymap := rfl
@[simp] theorem State.setLine_report : (s.setLine b).report = s.report := rfl
@[simp] theorem State.setLine_lookup : (s.setLine b).lookup = s.lookup := rfl
@[simp] theorem State.setLine_ledbuf : (s.setLine b).ledbuf = s.ledbuf := rfl
@[simp] theorem State.setLine_line : (s.setLine b).line = b := rfl
@[simp] theorem State.setLine_wire : (s.setLine b).wire = s.wire := rfl
@[simp] theorem State.setLine_halt : (s.setLine b).halt = s.halt := rfl
@[simp] theorem State.setLine_diag : (s.setLine b).diag = s.diag := rfl
@[simp] theorem State.setLine_frame : (s.setLine b).frame = s.frame := rfl
@[simp] theorem State.setLine_pins : (s.setLine b).pins = s.pins := rfl
@[simp] theorem State.setLine_inbox : (s.setLine b).inbox = s.inbox := rfl

end

/-! ### `setWire` -/

section
variable (w : List Segment)

@[simp] theorem State.setWire_cfg : (s.setWire w).cfg = s.cfg := rfl
@[simp] theorem State.setWire_keymap : (s.setWire w).keymap = s.keymap := rfl
@[simp] theorem State.setWire_report : (s.setWire w).report = s.report := rfl
@[simp] theorem State.setWire_lookup : (s.setWire w).lookup = s.lookup := rfl
@[simp] theorem State.setWire_ledbuf : (s.setWire w).ledbuf = s.ledbuf := rfl
@[simp] theorem State.setWire_line : (s.setWire w).line = s.line := rfl
@[simp] theorem State.setWire_wire : (s.setWire w).wire = w := rfl
@[simp] theorem State.setWire_halt : (s.setWire w).halt = s.halt := rfl
@[simp] theorem State.setWire_diag : (s.setWire w).diag = s.diag := rfl
@[simp] theorem State.setWire_frame : (s.setWire w).frame = s.frame := rfl
@[simp] theorem State.setWire_pins : (s.setWire w).pins = s.pins := rfl
@[simp] theorem State.setWire_inbox : (s.setWire w).inbox = s.inbox := rfl

end

/-! ### `setHalt` -/

section
variable (h : HaltRegs)

@[simp] theorem State.setHalt_cfg : (s.setHalt h).cfg = s.cfg := rfl
@[simp] theorem State.setHalt_keymap : (s.setHalt h).keymap = s.keymap := rfl
@[simp] theorem State.setHalt_report : (s.setHalt h).report = s.report := rfl
@[simp] theorem State.setHalt_lookup : (s.setHalt h).lookup = s.lookup := rfl
@[simp] theorem State.setHalt_ledbuf : (s.setHalt h).ledbuf = s.ledbuf := rfl
@[simp] theorem State.setHalt_line : (s.setHalt h).line = s.line := rfl
@[simp] theorem State.setHalt_wire : (s.setHalt h).wire = s.wire := rfl
@[simp] theorem State.setHalt_halt : (s.setHalt h).halt = h := rfl
@[simp] theorem State.setHalt_diag : (s.setHalt h).diag = s.diag := rfl
@[simp] theorem State.setHalt_frame : (s.setHalt h).frame = s.frame := rfl
@[simp] theorem State.setHalt_pins : (s.setHalt h).pins = s.pins := rfl
@[simp] theorem State.setHalt_inbox : (s.setHalt h).inbox = s.inbox := rfl

end

/-! ### `setDiag` -/

section
variable (d : DiagRegs)

@[simp] theorem State.setDiag_cfg : (s.setDiag d).cfg = s.cfg := rfl
@[simp] theorem State.setDiag_keymap : (s.setDiag d).keymap = s.keymap := rfl
@[simp] theorem State.setDiag_report : (s.setDiag d).report = s.report := rfl
@[simp] theorem State.setDiag_lookup : (s.setDiag d).lookup = s.lookup := rfl
@[simp] theorem State.setDiag_ledbuf : (s.setDiag d).ledbuf = s.ledbuf := rfl
@[simp] theorem State.setDiag_line : (s.setDiag d).line = s.line := rfl
@[simp] theorem State.setDiag_wire : (s.setDiag d).wire = s.wire := rfl
@[simp] theorem State.setDiag_halt : (s.setDiag d).halt = s.halt := rfl
@[simp] theorem State.setDiag_diag : (s.setDiag d).diag = d := rfl
@[simp] theorem State.setDiag_frame : (s.setDiag d).frame = s.frame := rfl
@[simp] theorem State.setDiag_pins : (s.setDiag d).pins = s.pins := rfl
@[simp] theorem State.setDiag_inbox : (s.setDiag d).inbox = s.inbox := rfl

end

/-! ### `setFrame` -/

section
variable (f : FrameVars)

@[simp] theorem State.setFrame_cfg : (s.setFrame f).cfg = s.cfg := rfl
@[simp] theorem State.setFrame_keymap : (s.setFrame f).keymap = s.keymap := rfl
@[simp] theorem State.setFrame_report : (s.setFrame f).report = s.report := rfl
@[simp] theorem State.setFrame_lookup : (s.setFrame f).lookup = s.lookup := rfl
@[simp] theorem State.setFrame_ledbuf : (s.setFrame f).ledbuf = s.ledbuf := rfl
@[simp] theorem State.setFrame_line : (s.setFrame f).line = s.line := rfl
@[simp] theorem State.setFrame_wire : (s.setFrame f).wire = s.wire := rfl
@[simp] theorem State.setFrame_halt : (s.setFrame f).halt = s.halt := rfl
@[simp] theorem State.setFrame_diag : (s.setFrame f).diag = s.diag := rfl
@[simp] theorem State.setFrame_frame : (s.setFrame f).frame = f := rfl
@[simp] theorem State.setFrame_pins : (s.setFrame f).pins = s.pins := rfl
@[simp] theorem State.setFrame_inbox : (s.setFrame f).inbox = s.inbox := rfl

end

/-! ### `setPins` -/

section
variable (p : Pins)

@[simp] theorem State.setPins_cfg : (s.setPins p).cfg = s.cfg := rfl
@[simp] theorem State.setPins_keymap : (s.setPins p).keymap = s.keymap := rfl
@[simp] theorem State.setPins_report : (s.setPins p).report = s.report := rfl
@[simp] theorem State.setPins_lookup : (s.setPins p).lookup = s.lookup := rfl
@[simp] theorem State.setPins_ledbuf : (s.setPins p).ledbuf = s.ledbuf := rfl
@[simp] theorem State.setPins_line : (s.setPins p).line = s.line := rfl
@[simp] theorem State.setPins_wire : (s.setPins p).wire = s.wire := rfl
@[simp] theorem State.setPins_halt : (s.setPins p).halt = s.halt := rfl
@[simp] theorem State.setPins_diag : (s.setPins p).diag = s.diag := rfl
@[simp] theorem State.setPins_frame : (s.setPins p).frame = s.frame := rfl
@[simp] theorem State.setPins_pins : (s.setPins p).pins = p := rfl
@[simp] theorem State.setPins_inbox : (s.setPins p).inbox = s.inbox := rfl

end

/-! ### `setInbox` -/

section
variable (i : List Input)

@[simp] theorem State.setInbox_cfg : (s.setInbox i).cfg = s.cfg := rfl
@[simp] theorem State.setInbox_keymap : (s.setInbox i).keymap = s.keymap := rfl
@[simp] theorem State.setInbox_report : (s.setInbox i).report = s.report := rfl
@[simp] theorem State.setInbox_lookup : (s.setInbox i).lookup = s.lookup := rfl
@[simp] theorem State.setInbox_ledbuf : (s.setInbox i).ledbuf = s.ledbuf := rfl
@[simp] theorem State.setInbox_line : (s.setInbox i).line = s.line := rfl
@[simp] theorem State.setInbox_wire : (s.setInbox i).wire = s.wire := rfl
@[simp] theorem State.setInbox_halt : (s.setInbox i).halt = s.halt := rfl
@[simp] theorem State.setInbox_diag : (s.setInbox i).diag = s.diag := rfl
@[simp] theorem State.setInbox_frame : (s.setInbox i).frame = s.frame := rfl
@[simp] theorem State.setInbox_pins : (s.setInbox i).pins = s.pins := rfl
@[simp] theorem State.setInbox_inbox : (s.setInbox i).inbox = i := rfl

end

/-! ### The reset state -/

section
variable (c : Config)

@[simp] theorem State.resetOf_cfg : (State.resetOf c).cfg = c := rfl
@[simp] theorem State.resetOf_keymap : (State.resetOf c).keymap = ⟨0, 0, false, false⟩ := rfl
@[simp] theorem State.resetOf_report : (State.resetOf c).report = Report.empty c := rfl
@[simp] theorem State.resetOf_lookup : (State.resetOf c).lookup = ⟨0, 0⟩ := rfl
@[simp] theorem State.resetOf_ledbuf : (State.resetOf c).ledbuf = [] := rfl
@[simp] theorem State.resetOf_line : (State.resetOf c).line = false := rfl
@[simp] theorem State.resetOf_wire : (State.resetOf c).wire = [] := rfl
@[simp] theorem State.resetOf_halt : (State.resetOf c).halt = ⟨false, 0, 0⟩ := rfl
@[simp] theorem State.resetOf_diag : (State.resetOf c).diag = ⟨0, 0, 0, []⟩ := rfl
@[simp] theorem State.resetOf_frame : (State.resetOf c).frame = FrameVars.initial := rfl
@[simp] theorem State.resetOf_pins : (State.resetOf c).pins = Pins.idle := rfl
@[simp] theorem State.resetOf_inbox : (State.resetOf c).inbox = [] := rfl

end

end Sys2Proof.Machine
end

