-- ==== Sys2Proof/Laws/PerInstr.lean ====
section
/-! SUPPORT. Families of statements made per instruction: decoding gives back what was encoded. First the fields of a
concatenation, then of the two kinds of word. -/

namespace Sys2Proof.Laws

/-- A field below the seam of a concatenation is a field of the low part. -/
theorem field_low {m n : Nat} (start len : Nat) (a : BitVec m) (b : BitVec n) (h : start + len ≤ n) :
    (a ++ b).extractLsb' start len = b.extractLsb' start len := by
  ext i hi
  simp [BitVec.getElem_extractLsb', BitVec.getLsbD_append, show start + i < n by omega]

/-- A field above the seam is a field of the high part. -/
theorem field_high {m n : Nat} (start len : Nat) (a : BitVec m) (b : BitVec n) (h : n ≤ start) :
    (a ++ b).extractLsb' start len = a.extractLsb' (start - n) len := by
  ext i hi
  simp [BitVec.getElem_extractLsb', BitVec.getLsbD_append, show ¬ start + i < n by omega,
    show start + i - n = start - n + i by omega]

/-- The whole of a word. -/
theorem field_all {n : Nat} (a : BitVec n) : a.extractLsb' 0 n = a := by
  ext i hi; simp

/-- The five bytes of a command word. -/
theorem cmd_bytes (op a r g b : Byte) :
    opcode (op ++ a ++ r ++ g ++ b) = op ∧ bodyTop (op ++ a ++ r ++ g ++ b) = a ∧
      BitVec.extractLsb' 16 8 (op ++ a ++ r ++ g ++ b) = r ∧ BitVec.extractLsb' 8 8 (op ++ a ++ r ++ g ++ b) = g ∧
      BitVec.extractLsb' 0 8 (op ++ a ++ r ++ g ++ b) = b := by
  refine ⟨?_, ?_, ?_, ?_, ?_⟩
  · exact (field_high 32 8 _ b (by omega)).trans ((field_high 24 8 _ g (by omega)).trans
      ((field_high 16 8 _ r (by omega)).trans ((field_high 8 8 _ a (by omega)).trans (field_all op))))
  · exact (field_high 24 8 _ b (by omega)).trans ((field_high 16 8 _ g (by omega)).trans
      ((field_high 8 8 _ r (by omega)).trans ((field_low 0 8 _ a (by omega)).trans (field_all a))))
  · exact (field_high 16 8 _ b (by omega)).trans ((field_high 8 8 _ g (by omega)).trans
      ((field_low 0 8 _ r (by omega)).trans (field_all r)))
  · exact (field_high 8 8 _ b (by omega)).trans ((field_low 0 8 _ g (by omega)).trans (field_all g))
  · exact (field_low 0 8 _ b (by omega)).trans (field_all b)

/-- The fields of a `KLOOK` word. -/
theorem klook_fields (op ctl : Byte) (sel : BitVec 1) (layer : LayerIx) :
    opcode (op ++ ctl ++ 0#7 ++ sel ++ 0#14 ++ layer) = op ∧
      bodyTop (op ++ ctl ++ 0#7 ++ sel ++ 0#14 ++ layer) = ctl ∧
      BitVec.extractLsb' 17 7 (op ++ ctl ++ 0#7 ++ sel ++ 0#14 ++ layer) = 0#7 ∧
      BitVec.extractLsb' 16 1 (op ++ ctl ++ 0#7 ++ sel ++ 0#14 ++ layer) = sel ∧
      BitVec.extractLsb' 2 14 (op ++ ctl ++ 0#7 ++ sel ++ 0#14 ++ layer) = 0#14 ∧
      BitVec.extractLsb' 0 2 (op ++ ctl ++ 0#7 ++ sel ++ 0#14 ++ layer) = layer := by
  refine ⟨?_, ?_, ?_, ?_, ?_, ?_⟩
  · exact (field_high 32 8 _ layer (by omega)).trans ((field_high 30 8 _ 0#14 (by omega)).trans
      ((field_high 16 8 _ sel (by omega)).trans ((field_high 15 8 _ 0#7 (by omega)).trans
        ((field_high 8 8 _ ctl (by omega)).trans (field_all op)))))
  · exact (field_high 24 8 _ layer (by omega)).trans ((field_high 22 8 _ 0#14 (by omega)).trans
      ((field_high 8 8 _ sel (by omega)).trans ((field_high 7 8 _ 0#7 (by omega)).trans
        ((field_low 0 8 _ ctl (by omega)).trans (field_all ctl)))))
  · exact (field_high 17 7 _ layer (by omega)).trans ((field_high 15 7 _ 0#14 (by omega)).trans
      ((field_high 1 7 _ sel (by omega)).trans ((field_low 0 7 _ 0#7 (by omega)).trans (field_all _))))
  · exact (field_high 16 1 _ layer (by omega)).trans ((field_high 14 1 _ 0#14 (by omega)).trans
      ((field_low 0 1 _ sel (by omega)).trans (field_all sel)))
  · exact (field_high 2 14 _ layer (by omega)).trans ((field_low 0 14 _ 0#14 (by omega)).trans (field_all _))
  · exact (field_low 0 2 _ layer (by omega)).trans (field_all layer)

theorem Kind_ofCode_code (k : Kind) : Kind.ofCode k.code = some k := by cases k <;> rfl

/-- The kind of a mapping word that was put together. -/
theorem kindOf_mapWord (k : Kind) (arg : BitVec 16) : kindOf (mapWord k arg) = some k := by
  have h : kindBits (mapWord k arg) = k.code := (field_high 16 4 k.code arg (by omega)).trans (field_all _)
  rw [kindOf, h, Kind_ofCode_code]

/-- The argument of a mapping word that was put together. -/
theorem argBits_mapWord (k : Kind) (arg : BitVec 16) : argBits (mapWord k arg) = arg :=
  (field_low 0 16 k.code arg (by omega)).trans (field_all _)

/-- A field of the argument of a mapping word that was put together. -/
theorem argField_mapWord (k : Kind) (arg : BitVec 16) (start len : Nat) (h : start + len ≤ 16) :
    (mapWord k arg).extractLsb' start len = arg.extractLsb' start len := field_low start len k.code arg h

/-- A two-bit argument, and the zero bits above it. -/
theorem argTwo_mapWord (k : Kind) (n : BitVec 2) :
    argTwo (mapWord k (0#14 ++ n)) = n ∧ (mapWord k (0#14 ++ n)).extractLsb' 2 14 = 0#14 :=
  ⟨(argField_mapWord k _ 0 2 (by omega)).trans ((field_low 0 2 0#14 n (by omega)).trans (field_all _)),
    (argField_mapWord k _ 2 14 (by omega)).trans ((field_high 2 14 0#14 n (by omega)).trans (field_all _))⟩

/-- A byte argument, and the zero bits above it. -/
theorem argByte_mapWord (k : Kind) (kc : Byte) :
    argByte (mapWord k (0#8 ++ kc)) = kc ∧ (mapWord k (0#8 ++ kc)).extractLsb' 8 8 = 0#8 :=
  ⟨(argField_mapWord k _ 0 8 (by omega)).trans ((field_low 0 8 0#8 kc (by omega)).trans (field_all _)),
    (argField_mapWord k _ 8 8 (by omega)).trans ((field_high 8 8 0#8 kc (by omega)).trans (field_all _))⟩

end Sys2Proof.Laws

namespace Sys2Proof.Laws.DecodesBack

open Sys2Proof.Laws

/-- Decoding the encoding of a well-formed instruction gives it back (30_encoding R83 to R86, R91). -/
def Statement (i : Instr) : Prop := i.wf = true → decode (encode i) = .ok i

theorem lset (idx r g b : Byte) : Statement (.lset idx r g b) := by
  intro _
  obtain ⟨h1, h2, h3, h4, h5⟩ := cmd_bytes 0x01#8 idx r g b
  show decodeCmd (0x01#8 ++ idx ++ r ++ g ++ b) = _
  rw [decodeCmd, h1, if_pos (by decide), h2, h3, h4, h5]

theorem lshow : Statement .lshow := by intro _; rfl
theorem kframe : Statement .kframe := by intro _; rfl
theorem frame : Statement .frame := by intro _; rfl

theorem klook (sel : Table) (ctl : Byte) (layer : LayerIx) : Statement (.klook sel ctl layer) := by
  intro _
  obtain ⟨h1, h2, h3, h4, h5, h6⟩ := klook_fields 0x05#8 ctl sel.sel layer
  show decodeCmd (0x05#8 ++ ctl ++ 0#7 ++ sel.sel ++ 0#14 ++ layer) = _
  have hs : selOf (BitVec.getLsbD (0x05#8 ++ ctl ++ 0#7 ++ sel.sel ++ 0#14 ++ layer) 16) = sel := by
    have hbit := congrArg (fun v : BitVec 1 => v.getLsbD 0) h4
    simp only [BitVec.getLsbD_extractLsb'] at hbit
    have hb : BitVec.getLsbD (0x05#8 ++ ctl ++ 0#7 ++ sel.sel ++ 0#14 ++ layer) 16 = sel.sel.getLsbD 0 := by
      simpa using hbit
    rw [hb]
    cases sel <;> rfl
  rw [decodeCmd, h1, if_neg (by decide), if_neg (by decide), if_neg (by decide), if_neg (by decide),
    if_pos (by decide), h2, h3, h5, h6, hs]
  rfl

theorem noop : Statement .noop := by intro _; rfl

theorem key (kc : Byte) : Statement (.key kc) := by
  intro _
  simp only [encode, decode, decodeMap, kindOf_mapWord, argByte_mapWord]
  rfl

theorem cons (code : BitVec 16) : Statement (.cons code) := by
  intro _
  simp only [encode, decode, decodeMap, kindOf_mapWord, argBits_mapWord]

theorem mouse (b : BitVec 2) : Statement (.mouse b) := by
  intro h
  have hb : ¬ b = 3 := by simpa [Instr.wf] using h
  simp only [encode, decode, decodeMap, kindOf_mapWord, argTwo_mapWord, if_neg hb]
  rfl

theorem joybtn : Statement .joybtn := by intro _; rfl

theorem mo (n : LayerIx) : Statement (.mo n) := by
  intro _
  simp only [encode, decode, decodeMap, kindOf_mapWord, argTwo_mapWord]
  rfl

theorem st (n : LayerIx) : Statement (.st n) := by
  intro _
  simp only [encode, decode, decodeMap, kindOf_mapWord, argTwo_mapWord]
  rfl

theorem mode (v : BitVec 16) : Statement (.mode v) := by
  intro _
  simp only [encode, decode, decodeMap, kindOf_mapWord, argBits_mapWord]

theorem trns : Statement .trns := by intro _; rfl

end Sys2Proof.Laws.DecodesBack
end

