-- ==== Sys2Proof/Laws/Decode.lean ====
section
/-! SUPPORT. The fields of a word put together again, and the codes of the kinds. -/

namespace Sys2Proof.Laws

/-- Two neighbouring fields are one field. -/
theorem fields_join {k : Nat} (start n m : Nat) (x : BitVec k) :
    x.extractLsb' (start + n) m ++ x.extractLsb' start n = x.extractLsb' start (m + n) := by
  ext i hi
  simp only [BitVec.getElem_append, BitVec.getElem_extractLsb']
  split
  · rfl
  · congr 1; omega

/-- A command word is its five bytes. -/
theorem cmd_join (w : CmdWord) :
    opcode w ++ bodyTop w ++ w.extractLsb' 16 8 ++ w.extractLsb' 8 8 ++ w.extractLsb' 0 8 = w := by
  have h1 : opcode w ++ bodyTop w = w.extractLsb' 24 16 := fields_join 24 8 8 w
  have h2 : w.extractLsb' 24 16 ++ w.extractLsb' 16 8 = w.extractLsb' 16 24 := fields_join 16 8 16 w
  have h3 : w.extractLsb' 16 24 ++ w.extractLsb' 8 8 = w.extractLsb' 8 32 := fields_join 8 8 24 w
  have h4 : w.extractLsb' 8 32 ++ w.extractLsb' 0 8 = w.extractLsb' 0 40 := fields_join 0 8 32 w
  rw [h1, h2, h3, h4]
  exact field_all w

/-- A command word is its opcode and its body. -/
theorem cmd_body_join (w : CmdWord) : opcode w ++ w.extractLsb' 0 32 = w :=
  (fields_join 0 32 8 w).trans (field_all w)

/-- A command word is the fields of the format `CK`. -/
theorem klook_join (w : CmdWord) :
    opcode w ++ bodyTop w ++ w.extractLsb' 17 7 ++ w.extractLsb' 16 1 ++ w.extractLsb' 2 14
      ++ w.extractLsb' 0 2 = w := by
  have h1 : opcode w ++ bodyTop w = w.extractLsb' 24 16 := fields_join 24 8 8 w
  have h2 : w.extractLsb' 24 16 ++ w.extractLsb' 17 7 = w.extractLsb' 17 23 := fields_join 17 7 16 w
  have h3 : w.extractLsb' 17 23 ++ w.extractLsb' 16 1 = w.extractLsb' 16 24 := fields_join 16 1 23 w
  have h4 : w.extractLsb' 16 24 ++ w.extractLsb' 2 14 = w.extractLsb' 2 38 := fields_join 2 14 24 w
  have h5 : w.extractLsb' 2 38 ++ w.extractLsb' 0 2 = w.extractLsb' 0 40 := fields_join 0 2 38 w
  rw [h1, h2, h3, h4, h5]
  exact field_all w

/-- A mapping word is its kind and its argument. -/
theorem map_join (m : MapWord) : kindBits m ++ argBits m = m := (fields_join 0 16 4 m).trans (field_all m)

theorem arg_join_two (m : MapWord) : m.extractLsb' 2 14 ++ argTwo m = argBits m := fields_join 0 2 14 m

theorem arg_join_byte (m : MapWord) : m.extractLsb' 8 8 ++ argByte m = argBits m := fields_join 0 8 8 m

/-- The code of the kind that a code stands for is that code. -/
theorem Kind_code_ofCode {b : BitVec 4} {k : Kind} (h : Kind.ofCode b = some k) : k.code = b := by
  revert h; revert k; revert b; decide

/-- The table that bit 16 selects has that bit. -/
theorem sel_selOf (w : CmdWord) : (selOf (w.getLsbD 16)).sel = w.extractLsb' 16 1 := by
  have h : w.extractLsb' 16 1 = BitVec.ofBool (w.getLsbD 16) := by
    ext i hi
    obtain rfl : i = 0 := by omega
    simp
  rw [h]; cases w.getLsbD 16 <;> rfl

/-- A word of a legal kind is the kind's code and the argument. -/
theorem mapWord_kindOf {m : MapWord} {k : Kind} (h : kindOf m = some k) : mapWord k (argBits m) = m := by
  rw [mapWord, Kind_code_ofCode h, map_join]

end Sys2Proof.Laws
end

