-- ==== Sys2Proof/Laws/Memory.lean ====
section
/-! SUPPORT. The LED buffer's storage: a read after a write, and the canonical form kept by every operation. -/

namespace Sys2Proof.Machine

variable (d : Nat → Byte)

theorem Memory.read_insert (m : List Host.Cell) (a b : Nat) (v : Byte) :
    Memory.read d (Memory.insert m a v) b = if b = a then v else Memory.read d m b := by
  induction m with
  | nil =>
    rcases eq_or_ne b a with rfl | h
    · simp [Memory.insert, Memory.read]
    · simp [Memory.insert, Memory.read, h, h.symm]
  | cons c rest ih =>
    obtain ⟨k, w⟩ := c
    simp only [Memory.insert]
    split
    · rcases eq_or_ne b a with rfl | h
      · simp [Memory.read]
      · simp [Memory.read, h, h.symm]
    · split
      · rename_i h; subst h
        rcases eq_or_ne b a with rfl | h
        · simp [Memory.read]
        · simp [Memory.read, h, h.symm]
      · rename_i h1 h2
        by_cases hk : k = b
        · subst hk
          simp [Memory.read, Ne.symm h2]
        · simp [Memory.read, hk, ih]

theorem Memory.read_erase (m : List Host.Cell) (a b : Nat) :
    Memory.read d (Memory.erase m a) b = if b = a then d a else Memory.read d m b := by
  induction m with
  | nil => by_cases h : b = a <;> simp [Memory.erase, Memory.read, h]
  | cons c rest ih =>
    obtain ⟨k, w⟩ := c
    simp only [Memory.erase, List.filter_cons] at ih ⊢
    by_cases hk : k = a
    · subst hk
      by_cases hb : b = k
      · simpa [hb] using ih
      · simp only [bne_self_eq_false, Bool.false_eq_true, ↓reduceIte, ih, hb, Memory.read, Ne.symm hb]
    · by_cases hb : k = b
      · subst hb; simp [Memory.read, hk]
      · simp [Memory.read, hk, hb, ih]

/-- A read after a write: the byte written at its address, every other address as before. -/
theorem Memory.read_write (m : List Host.Cell) (a b : Nat) (v : Byte) :
    Memory.read d (Memory.write d m a v) b = if b = a then v else Memory.read d m b := by
  unfold Memory.write
  split
  · rename_i h; subst h; exact Memory.read_erase d m a b
  · exact Memory.read_insert d m a b v

variable (size : Nat)

theorem Memory.wf_nil : Memory.wf d size [] := ⟨.nil, by simp⟩

theorem Memory.wf_erase {m : List Host.Cell} (a : Nat) (h : Memory.wf d size m) :
    Memory.wf d size (Memory.erase m a) :=
  ⟨h.1.filter _, fun c hc => h.2 c (List.mem_of_mem_filter hc)⟩

theorem Memory.mem_insert {m : List Host.Cell} {a : Nat} {v : Byte} {c : Host.Cell}
    (h : c ∈ Memory.insert m a v) : c = (a, v) ∨ c ∈ m := by
  induction m with
  | nil => simpa [Memory.insert] using h
  | cons x rest ih =>
    obtain ⟨k, w⟩ := x
    simp only [Memory.insert] at h
    split at h
    · simpa using h
    · split at h
      · rcases List.mem_cons.1 h with h | h
        · exact .inl h
        · exact .inr (List.mem_cons_of_mem _ h)
      · rcases List.mem_cons.1 h with h | h
        · exact .inr (h ▸ List.mem_cons_self)
        · exact (ih h).imp_right (List.mem_cons_of_mem _)

theorem Memory.wf_insert {m : List Host.Cell} {a : Nat} {v : Byte} (h : Memory.wf d size m)
    (ha : a < size) (hv : v ≠ d a) : Memory.wf d size (Memory.insert m a v) := by
  refine ⟨?_, fun c hc => ?_⟩
  · obtain ⟨hp, -⟩ := h
    induction m with
    | nil => simp [Memory.insert]
    | cons x rest ih =>
      obtain ⟨k, w⟩ := x
      obtain ⟨hk, hrest⟩ := List.pairwise_cons.1 hp
      simp only [Memory.insert]
      split
      · rename_i hak
        refine List.pairwise_cons.2 ⟨fun c hc => ?_, hp⟩
        rcases List.mem_cons.1 hc with rfl | hc
        · exact hak
        · exact Nat.lt_trans hak (hk c hc)
      · split
        · rename_i hak; subst hak
          exact List.pairwise_cons.2 ⟨hk, hrest⟩
        · refine List.pairwise_cons.2 ⟨fun c hc => ?_, ih hrest⟩
          rcases Memory.mem_insert hc with rfl | hc
          · show k < a; omega
          · exact hk c hc
  · rcases Memory.mem_insert hc with rfl | hc
    · exact ⟨ha, hv⟩
    · exact h.2 c hc

/-- Every write below the size keeps the canonical form. -/
theorem Memory.wf_write {m : List Host.Cell} {a : Nat} (v : Byte) (h : Memory.wf d size m) (ha : a < size) :
    Memory.wf d size (Memory.write d m a v) := by
  unfold Memory.write
  split
  · exact Memory.wf_erase d size a h
  · exact Memory.wf_insert d size h ha ‹_›

end Sys2Proof.Machine
end

