-- ==== Sys2Proof/Laws/Ops.lean ====
section
/-! SUPPORT. One specification lemma per shared operation over the LED buffer, the wire, diagnostics and the halt. -/

namespace Sys2Proof.Machine

/-! ### The LED buffer -/

/-- A byte of the buffer depends on the configuration and the cells only. -/
theorem ledByte_congr {s t : State} (hc : t.cfg = s.cfg) (hl : t.ledbuf = s.ledbuf) (i k : Nat) :
    ledByte t i k = ledByte s i k := by simp [ledByte, hc, hl]

theorem setLedByte_eq (i k : Nat) (v : Byte) (s : State) :
    setLedByte i k v s = s.setLedbuf (Memory.write (ledResetByte s.cfg) s.ledbuf (ledKey i k) v) := rfl

theorem ledKey_inj {i j k l : Nat} (hk : k < 3) (hl : l < 3) : ledKey i k = ledKey j l ↔ i = j ∧ k = l := by
  unfold ledKey; omega

/-- Writing one byte of the buffer changes that byte and no other. -/
theorem ledByte_setLedByte (s : State) (i j : Nat) {k l : Nat} (v : Byte) (hk : k < 3) (hl : l < 3) :
    ledByte (setLedByte i k v s) j l = if j = i ∧ l = k then v else ledByte s j l := by
  simp only [ledByte, setLedByte, State.setLedbuf_cfg, State.setLedbuf_ledbuf, Memory.read_write,
    ledKey_inj hl hk]

/-- `storeColour` is one update of the buffer. -/
theorem storeColour_eq (i : Nat) (col : Rgb) (s : State) :
    ∃ m, storeColour i col s = s.setLedbuf m := ⟨_, rfl⟩

/-- After `storeColour` the entry holds the corrected colour and every other entry is as before. -/
theorem ledByte_storeColour (i j : Nat) (col : Rgb) (s : State) {k : Nat} (hk : k < 3) :
    ledByte (storeColour i col s) j k = if j = i then correct s.cfg col k else ledByte s j k := by
  unfold storeColour
  rw [ledByte_setLedByte _ _ _ _ (by omega) hk, ledByte_setLedByte _ _ _ _ (by omega) hk,
    ledByte_setLedByte _ _ _ _ (by omega) hk]
  have h3 : k = 0 ∨ k = 1 ∨ k = 2 := by omega
  by_cases hj : j = i
  · rcases h3 with rfl | rfl | rfl <;> simp [hj]
  · simp [hj]

/-- Storing a colour in an existing entry keeps the buffer canonical. -/
theorem storeColour_canonical {i : Nat} {s : State} (col : Rgb) (hi : i < s.cfg.nLed) (h : LedCanonical s) :
    LedCanonical (storeColour i col s) := by
  have hs : ∀ k, k < 3 → ledKey i k < ledSize s.cfg := by intro k hk; unfold ledKey ledSize; omega
  exact Memory.wf_write _ _ _ (Memory.wf_write _ _ _ (Memory.wf_write _ _ _ h (hs 0 (by omega)))
    (hs 1 (by omega))) (hs 2 (by omega))

/-! ### The wire -/

theorem emit_eq (s : State) (g : Segment) : emit s g = (s.setLine g.level).setWire (s.wire ++ [g]) := rfl

/-- Emitting segments appends them to the trace and moves the line, nothing else. -/
theorem emitAll_eq (gs : List Segment) (s : State) :
    ∃ b, emitAll gs s = (s.setLine b).setWire (s.wire ++ gs) := by
  induction gs generalizing s with
  | nil => exact ⟨s.line, by simp [emitAll, State.setLine, State.setWire]⟩
  | cons g rest ih =>
    obtain ⟨b, hb⟩ := ih (emit s g)
    refine ⟨b, ?_⟩
    simp only [emitAll, List.foldl_cons] at hb ⊢
    rw [hb]
    simp [emit, State.setLine, State.setWire]

/-- A transmission appends the cells and the latch, and leaves the line low. -/
theorem transmit_eq (s : State) :
    transmit s = (s.setWire (s.wire ++ (wireBits s).flatMap bitCell ++ [latch])).setLine false := by
  obtain ⟨b, hb⟩ := emitAll_eq ((wireBits s).flatMap bitCell) s
  unfold transmit
  rw [hb]
  simp [emit, State.setLine, State.setWire]

/-- The symbol view of a trace that is continued. -/
theorem symbolView_append {a b : List Segment} {va : List Symbol} (h : symbolView a = some va) :
    symbolView (a ++ b) = (symbolView b).map (va ++ ·) := by
  induction a using symbolView.induct generalizing va with
  | case1 => simp only [symbolView, Option.some.injEq] at h; subst h; simp
  | case2 rest ih =>
    simp only [symbolView, Option.map_eq_some_iff] at h
    obtain ⟨w, hw, rfl⟩ := h
    simp [symbolView, ih hw, Function.comp_def]
  | case3 rest ih =>
    simp only [symbolView, Option.map_eq_some_iff] at h
    obtain ⟨w, hw, rfl⟩ := h
    simp [symbolView, ih hw, Function.comp_def]
  | case4 rest ih =>
    simp only [symbolView, Option.map_eq_some_iff] at h
    obtain ⟨w, hw, rfl⟩ := h
    simp [symbolView, ih hw, Function.comp_def]
  | case5 => simp_all [symbolView]

/-- The cells of some bits are seen as those bits. -/
theorem symbolView_cells (bs : List Bool) : symbolView (bs.flatMap bitCell) = some (bs.map Symbol.bit) := by
  induction bs with
  | nil => rfl
  | cons b rest ih => cases b <;> simp [bitCell, symbolView, ih]

theorem symbolView_latch : symbolView [latch] = some [Symbol.latch] := rfl

/-! ### Diagnostics and the halt -/

theorem diagnose_eq (e : DiagEvent) (info : BitVec 16) (s : State) :
    diagnose e info s = s.setDiag (s.diag.emit e info) := rfl

@[simp] theorem DiagRegs.emit_log (d : DiagRegs) (e : DiagEvent) (info : BitVec 16) :
    (d.emit e info).log = d.log ++ [⟨e, info⟩] := rfl

theorem raiseFatal_eq (e : FatalEvent) (info : BitVec 16) (s : State) :
    raiseFatal e info s = s.setHalt ⟨true, e.code, info⟩ := rfl

theorem FatalEvent.code_cases (e : FatalEvent) : e.code = 3 ∨ e.code = 4 ∨ e.code = 7 := by
  cases e <;> simp [FatalEvent.code]

theorem takeReset_eq (s : State) :
    takeReset s = ((State.resetOf s.cfg).setPins s.pins).setInbox s.inbox := rfl

@[simp] theorem Flow.done_go (s : State) : (Flow.go s).done = .next s := rfl
@[simp] theorem Flow.done_halt (s : State) : (Flow.halt s).done = .next s := rfl
@[simp] theorem Flow.state_go (s : State) : (Flow.go s).state = s := rfl
@[simp] theorem Flow.state_halt (s : State) : (Flow.halt s).state = s := rfl
@[simp] theorem Flow.andThen_go (s : State) (f : State → Flow) : (Flow.go s).andThen f = f s := rfl
@[simp] theorem Flow.andThen_halt (s : State) (f : State → Flow) : (Flow.halt s).andThen f = .halt s := rfl

end Sys2Proof.Machine
end

