-- ==== Sys2Proof/Laws/Frame.lean ====
section
/-! SUPPORT. What the passes of a frame do, once: the folds of `add` and `collect` in closed form, and `KFRAME` as one
update of the state. -/

namespace Sys2Proof.Machine

/-! ### Lists of diagnostics -/

/-- The diagnostic registers after a list of diagnostics. -/
def DiagRegs.emits (d : DiagRegs) (l : List DiagEntry) : DiagRegs := l.foldl (fun d e => d.emit e.event e.info) d

@[simp] theorem DiagRegs.emits_nil (d : DiagRegs) : d.emits [] = d := rfl

@[simp] theorem DiagRegs.emits_cons (d : DiagRegs) (e : DiagEntry) (l : List DiagEntry) :
    d.emits (e :: l) = (d.emit e.event e.info).emits l := rfl

theorem DiagRegs.emits_append (d : DiagRegs) (l l' : List DiagEntry) :
    d.emits (l ++ l') = (d.emits l).emits l' := by simp [DiagRegs.emits]

@[simp] theorem DiagRegs.emits_log (d : DiagRegs) (l : List DiagEntry) : (d.emits l).log = d.log ++ l := by
  induction l generalizing d with
  | nil => simp
  | cons e rest ih => simp [ih]

theorem Spec_ofEvent_cons (e : DiagEvent) (x : DiagEntry) (l : List DiagEntry) :
    Spec.ofEvent e (x :: l) = if x.event = e then x :: Spec.ofEvent e l else Spec.ofEvent e l := by
  by_cases h : x.event = e <;> simp [Spec.ofEvent, h]

theorem Spec_ofEvent_append (e : DiagEvent) (l l' : List DiagEntry) :
    Spec.ofEvent e (l ++ l') = Spec.ofEvent e l ++ Spec.ofEvent e l' := by simp [Spec.ofEvent]

theorem counter_step (x : BitVec 16) (n : Nat) : x + 1#16 + BitVec.ofNat 16 n = x + BitVec.ofNat 16 (n + 1) := by
  apply BitVec.eq_of_toNat_eq
  simp only [BitVec.toNat_add, BitVec.toNat_ofNat]
  omega

/-- A counter steps once for each diagnostic of its code. -/
theorem DiagRegs.emits_counters (d : DiagRegs) (l : List DiagEntry) :
    (d.emits l).ovf = d.ovf + BitVec.ofNat 16 (Spec.ofEvent .kcOverflow l).length ∧
      (d.emits l).conflict = d.conflict + BitVec.ofNat 16 (Spec.ofEvent .stateConflict l).length ∧
      (d.emits l).cons = d.cons + BitVec.ofNat 16 (Spec.ofEvent .consConflict l).length := by
  induction l generalizing d with
  | nil => simp [Spec.ofEvent]
  | cons x rest ih =>
    obtain ⟨h1, h2, h3⟩ := ih (d.emit x.event x.info)
    rw [DiagRegs.emits_cons, h1, h2, h3]
    obtain ⟨e, info⟩ := x
    cases e <;> simp [Spec_ofEvent_cons, DiagRegs.emit, counter_step]

/-! ### The accumulator: the fold of `add` -/

/-- The mouse flags after the words are fed. -/
def orMouse (ws : List MapWord) (a : BitVec 3) : BitVec 3 :=
  ws.foldl (fun a m => if kindOf m = some .mouse then a ||| mouseFlag (argTwo m) else a) a

/-- The transients after the words are fed. -/
def accFrame (cap : Nat) (f : FrameVars) (ws : List MapWord) : FrameVars :=
  { f with
    accKeys := f.accKeys ++ (Spec.keycodes ws).take (cap - f.accKeys.length)
    accMouse := orMouse ws f.accMouse
    accJoy := f.accJoy || Spec.hasJoyBtn ws
    accCons := f.accCons.or (Spec.consCodes ws).head? }

theorem keycodes_cons (m : MapWord) (ws : List MapWord) :
    Spec.keycodes (m :: ws) = Spec.keycodes [m] ++ Spec.keycodes ws := by
  rw [← List.singleton_append, Spec.keycodes, List.filterMap_append]; rfl

theorem consCodes_cons (m : MapWord) (ws : List MapWord) :
    Spec.consCodes (m :: ws) = Spec.consCodes [m] ++ Spec.consCodes ws := by
  rw [← List.singleton_append, Spec.consCodes, List.filterMap_append]; rfl

theorem accFrame_cons (cap : Nat) (f : FrameVars) (m : MapWord) (ws : List MapWord) :
    accFrame cap (accFrame cap f [m]) ws = accFrame cap f (m :: ws) := by
  simp only [accFrame, FrameVars.mk.injEq, and_true]
  refine ⟨?_, rfl, ?_, ?_⟩
  · rw [keycodes_cons m ws, List.append_assoc, List.append_cancel_left_eq, List.take_append,
      List.append_cancel_left_eq]
    congr 1
    simp only [List.length_append, List.length_take]
    omega
  · simp [Spec.hasJoyBtn, Bool.or_assoc]
  · rw [consCodes_cons m ws, List.head?_append, Option.or_assoc]

theorem keycodes_single (m : MapWord) : Spec.keycodes [m] = [] ∨ ∃ kc, Spec.keycodes [m] = [kc] := by
  simp only [Spec.keycodes, List.filterMap_cons, List.filterMap_nil]
  split <;> simp

theorem consCodes_single (m : MapWord) : Spec.consCodes [m] = [] ∨ ∃ code, Spec.consCodes [m] = [code] := by
  simp only [Spec.consCodes, List.filterMap_cons, List.filterMap_nil]
  split <;> simp

/-- The diagnostics of feeding, class by class: the keycodes beyond the room, the consumer codes after the first. -/
theorem dropLog_ofEvent (room : Nat) (taken : Bool) (ws : List MapWord) :
    Spec.ofEvent .kcOverflow (Spec.dropLog room taken ws) =
        ((Spec.keycodes ws).drop room).map (fun kc => ⟨.kcOverflow, 0#8 ++ kc⟩) ∧
      Spec.ofEvent .consConflict (Spec.dropLog room taken ws) =
        ((Spec.consCodes ws).drop (if taken then 0 else 1)).map (fun code => ⟨.consConflict, code⟩) ∧
      Spec.ofEvent .stateConflict (Spec.dropLog room taken ws) = [] := by
  induction ws generalizing room taken with
  | nil => simp [Spec.dropLog, Spec.ofEvent, Spec.keycodes, Spec.consCodes]
  | cons m ws ih =>
    obtain ⟨ho, hc, hs⟩ := ih (room - (Spec.keycodes [m]).length) (taken || !(Spec.consCodes [m]).isEmpty)
    rw [keycodes_cons m ws, consCodes_cons m ws]
    simp only [Spec.dropLog, Spec_ofEvent_append, ho, hc, hs]
    obtain hk | ⟨kc, hk⟩ := keycodes_single m <;> obtain hm | ⟨code, hm⟩ := consCodes_single m <;>
      cases room <;> cases taken <;> simp [hk, hm, Spec.ofEvent]

/-- What `add` does with one word: an update of the transients, and the diagnostic of a dropped code. -/
theorem add_spec (s : State) (m : MapWord) : add s m =
    (s.setFrame (accFrame s.cfg.kcCap s.frame [m])).setDiag (s.diag.emits
      (Spec.dropLog (s.cfg.kcCap - s.frame.accKeys.length) s.frame.accCons.isSome [m])) := by
  have hz : ∀ kc : Byte, kc.setWidth 16 = 0#8 ++ kc := by decide
  unfold add
  cases hk : kindOf m with
  | none => simp [accFrame, Spec.keycodes, Spec.consCodes, Spec.hasJoyBtn, orMouse, hk, Spec.dropLog, State.setFrame,
      State.setDiag]
  | some k =>
    cases k with
    | key =>
      simp only [addKey]
      split
      · simp_all [accFrame, Spec.keycodes, Spec.consCodes, Spec.hasJoyBtn, orMouse, Spec.dropLog, State.setFrame,
          State.setDiag]
      · split
        · rename_i h0 hlt
          obtain ⟨n, hn⟩ : ∃ n, s.cfg.kcCap - s.frame.accKeys.length = n + 1 := ⟨_, (by omega :
            s.cfg.kcCap - s.frame.accKeys.length = (s.cfg.kcCap - s.frame.accKeys.length - 1) + 1)⟩
          simp_all [accFrame, Spec.keycodes, Spec.consCodes, Spec.hasJoyBtn, orMouse, Spec.dropLog, State.setFrame,
            State.setDiag]
        · rename_i h0 hlt
          have hn : s.cfg.kcCap - s.frame.accKeys.length = 0 := by omega
          simp_all [accFrame, Spec.keycodes, Spec.consCodes, Spec.hasJoyBtn, orMouse, Spec.dropLog, State.setFrame,
            State.setDiag, diagnose]
    | cons =>
      simp only [addCons]
      split
      · simp_all [accFrame, Spec.keycodes, Spec.consCodes, Spec.hasJoyBtn, orMouse, Spec.dropLog, State.setFrame,
          State.setDiag]
      · rename_i h
        simp_all [accFrame, Spec.keycodes, Spec.consCodes, Spec.hasJoyBtn, orMouse, Spec.dropLog, State.setFrame,
          State.setDiag, diagnose]
        rw [← h]
    | mouse =>
      simp [addMouse, accFrame, Spec.keycodes, Spec.consCodes, Spec.hasJoyBtn, orMouse, hk, Spec.dropLog,
        State.setFrame, State.setDiag]
    | joybtn =>
      simp [addJoyBtn, accFrame, Spec.keycodes, Spec.consCodes, Spec.hasJoyBtn, orMouse, hk, Spec.dropLog,
        State.setFrame, State.setDiag]
    | _ =>
      simp [accFrame, Spec.keycodes, Spec.consCodes, Spec.hasJoyBtn, orMouse, hk, Spec.dropLog, State.setFrame,
        State.setDiag]

theorem dropLog_cons (room : Nat) (taken : Bool) (m : MapWord) (ws : List MapWord) :
    Spec.dropLog room taken (m :: ws) = Spec.dropLog room taken [m]
      ++ Spec.dropLog (room - (Spec.keycodes [m]).length) (taken || !(Spec.consCodes [m]).isEmpty) ws := by
  simp [Spec.dropLog]

/-- What feeding a list of words does: which codes are kept, which diagnostics are emitted and in which order, and that
nothing but the transients and the diagnostics changes. -/
theorem foldl_add (ws : List MapWord) (s : State) : ws.foldl add s =
    (s.setFrame (accFrame s.cfg.kcCap s.frame ws)).setDiag (s.diag.emits
      (Spec.dropLog (s.cfg.kcCap - s.frame.accKeys.length) s.frame.accCons.isSome ws)) := by
  induction ws generalizing s with
  | nil => simp [accFrame, Spec.keycodes, Spec.consCodes, Spec.hasJoyBtn, orMouse, Spec.dropLog, State.setFrame,
      State.setDiag]
  | cons m ws ih =>
    have hroom : s.cfg.kcCap - (accFrame s.cfg.kcCap s.frame [m]).accKeys.length =
        s.cfg.kcCap - s.frame.accKeys.length - (Spec.keycodes [m]).length := by
      simp only [accFrame, List.length_append, List.length_take]
      omega
    have htaken : (accFrame s.cfg.kcCap s.frame [m]).accCons.isSome =
        (s.frame.accCons.isSome || !(Spec.consCodes [m]).isEmpty) := by
      simp only [accFrame]
      cases s.frame.accCons <;> cases Spec.consCodes [m] <;> simp
    rw [List.foldl_cons, ih, add_spec, dropLog_cons _ _ m ws, DiagRegs.emits_append]
    simp only [State.setDiag_cfg, State.setFrame_cfg, State.setDiag_frame, State.setFrame_frame, State.setDiag_diag,
      accFrame_cons, hroom, htaken]
    rfl

/-! ### Pass 1: the fold of `collect` -/

/-- The request slots after the scanned words are collected. -/
def reqFrame (f : FrameVars) (l : List (Nat × MapWord)) : FrameVars :=
  { f with
    layerReq := f.layerReq.or (l.filterMap (fun cm => Spec.layerReqOf cm.2)).head?
    modeReq := f.modeReq.or (l.filterMap (fun cm => Spec.modeReqOf cm.2)).head? }

theorem reqFrame_cons (f : FrameVars) (cm : Nat × MapWord) (l : List (Nat × MapWord)) :
    reqFrame (reqFrame f [cm]) l = reqFrame f (cm :: l) := by
  simp only [reqFrame, FrameVars.mk.injEq, and_true, true_and]
  refine ⟨?_, ?_⟩
  · cases h : Spec.layerReqOf cm.2 <;> cases f.layerReq <;> simp [h]
  · cases h : Spec.modeReqOf cm.2 <;> cases f.modeReq <;> simp [h]

/-- What `collect` does with one word: the slots, and the diagnostic of a dropped request. -/
theorem collect_spec (s : State) (cm : Nat × MapWord) :
    collect s cm = (s.setFrame (reqFrame s.frame [cm])).setDiag
      (s.diag.emits (Spec.conflictLog s.frame.layerReq.isSome s.frame.modeReq.isSome [cm])) := by
  unfold collect
  cases hk : kindOf cm.2 with
  | none => simp [reqFrame, Spec.layerReqOf, Spec.modeReqOf, Spec.conflictLog, hk, State.setFrame, State.setDiag]
  | some k =>
    cases k with
    | mo =>
      simp only [collectLayer]
      split <;> rename_i h
      · simp_all [reqFrame, Spec.layerReqOf, Spec.modeReqOf, Spec.conflictLog, State.setFrame, State.setDiag]
      · simp_all [reqFrame, Spec.layerReqOf, Spec.modeReqOf, Spec.conflictLog, State.setFrame, State.setDiag,
          diagnose, conflictInfo]
        rw [← h]
    | st =>
      simp only [collectLayer]
      split <;> rename_i h
      · simp_all [reqFrame, Spec.layerReqOf, Spec.modeReqOf, Spec.conflictLog, State.setFrame, State.setDiag]
      · simp_all [reqFrame, Spec.layerReqOf, Spec.modeReqOf, Spec.conflictLog, State.setFrame, State.setDiag,
          diagnose, conflictInfo]
        rw [← h]
    | mode =>
      simp only [collectMode]
      split <;> rename_i h
      · simp_all [reqFrame, Spec.layerReqOf, Spec.modeReqOf, Spec.conflictLog, State.setFrame, State.setDiag]
      · simp_all [reqFrame, Spec.layerReqOf, Spec.modeReqOf, Spec.conflictLog, State.setFrame, State.setDiag,
          diagnose, conflictInfo]
        rw [← h]
    | _ => simp [reqFrame, Spec.layerReqOf, Spec.modeReqOf, Spec.conflictLog, hk, State.setFrame, State.setDiag]

theorem conflictLog_cons (a b : Bool) (cm : Nat × MapWord) (l : List (Nat × MapWord)) :
    Spec.conflictLog a b (cm :: l) = Spec.conflictLog a b [cm]
      ++ Spec.conflictLog (a || (Spec.layerReqOf cm.2).isSome) (b || (Spec.modeReqOf cm.2).isSome) l := by
  simp [Spec.conflictLog]

/-- What collecting the scanned words does: first wins in each class, every later one is dropped with a diagnostic. -/
theorem foldl_collect (l : List (Nat × MapWord)) (s : State) :
    l.foldl collect s = (s.setFrame (reqFrame s.frame l)).setDiag
      (s.diag.emits (Spec.conflictLog s.frame.layerReq.isSome s.frame.modeReq.isSome l)) := by
  induction l generalizing s with
  | nil => simp [reqFrame, Spec.conflictLog, State.setFrame, State.setDiag]
  | cons cm l ih =>
    have hl : ∀ (o : Option LayerReq), (o.or (List.filterMap (fun cm => Spec.layerReqOf cm.2) [cm]).head?).isSome
        = (o.isSome || (Spec.layerReqOf cm.2).isSome) := by
      intro o; cases o <;> cases h : Spec.layerReqOf cm.2 <;> simp [h]
    have hm : ∀ (o : Option (BitVec 16)), (o.or (List.filterMap (fun cm => Spec.modeReqOf cm.2) [cm]).head?).isSome
        = (o.isSome || (Spec.modeReqOf cm.2).isSome) := by
      intro o; cases o <;> cases h : Spec.modeReqOf cm.2 <;> simp [h]
    rw [List.foldl_cons, ih, collect_spec, conflictLog_cons _ _ cm l, DiagRegs.emits_append]
    simp only [State.setDiag_frame, State.setFrame_frame, State.setDiag_diag, reqFrame_cons]
    simp only [reqFrame, hl, hm]
    rfl

end Sys2Proof.Machine
end

