-- ==== Sys2Proof/Laws/Kframe.lean ====
section
/-! SUPPORT. `KFRAME` as one update of the state: what a completed frame and what a halted frame leave. -/

namespace Sys2Proof.Machine

/-- The diagnostic registers at the start of a frame: the counters cleared. -/
def clearedDiag (s : State) : DiagRegs := { s.diag with ovf := 0, conflict := 0, cons := 0 }

/-- The transients pass 1 starts from. -/
def startFrame (s : State) : FrameVars :=
  { FrameVars.initial with
    wheel := wheelStep s.keymap.prevA s.pins.rotA s.pins.rotB
    cx := centreX s
    cy := centreY s
    up := beyondPos (centreY s) s.cfg.ydz
    down := beyondNeg (centreY s) s.cfg.ydz
    left := beyondNeg (centreX s) s.cfg.xdz
    right := beyondPos (centreX s) s.cfg.xdz }

theorem frameStart_eq (s : State) : frameStart s =
    ((s.setKeymap { s.keymap with prevA := s.pins.rotA }).setFrame (startFrame s)).setDiag (clearedDiag s) := rfl

/-- The actuated controls with the words they resolve to at the stored layer. -/
def storedScan (s : State) : List (Nat × MapWord) := (actuated s).map (fun c => (c, Spec.storedWord s c))

theorem storedScan_layerRequests (s : State) :
    (storedScan s).filterMap (fun cm => Spec.layerReqOf cm.2) = Spec.layerRequests s := by
  simp [storedScan, Spec.layerRequests, List.filterMap_map]

theorem storedScan_modeRequests (s : State) :
    (storedScan s).filterMap (fun cm => Spec.modeReqOf cm.2) = Spec.modeRequests s := by
  simp [storedScan, Spec.modeRequests, List.filterMap_map]

/-- The state when the scan of pass 1 is over and the layer request has been applied. -/
def layerApplied (s : State) : State :=
  ((s.setKeymap { Spec.newKeymap s with wasd := s.keymap.wasd }).setFrame
    (reqFrame (startFrame s) (storedScan s))).setDiag ((clearedDiag s).emits (Spec.conflicts s))

theorem collectAll_frameStart (s : State) : collectAll (enterStored (frameStart s)) =
    ((s.setKeymap ⟨s.keymap.sto, s.keymap.sto, s.keymap.wasd, s.pins.rotA⟩).setFrame
      (reqFrame (startFrame s) (storedScan s))).setDiag ((clearedDiag s).emits (Spec.conflicts s)) := by
  have hscan : scanned (enterStored (frameStart s)) = storedScan s := rfl
  rw [collectAll, hscan, foldl_collect, frameStart_eq]
  rfl

theorem applyLayerReq_collected (s : State) :
    applyLayerReq (collectAll (enterStored (frameStart s))) = layerApplied s := by
  have hreq : (reqFrame (startFrame s) (storedScan s)).layerReq = (Spec.layerRequests s).head? := by
    rw [← storedScan_layerRequests]; rfl
  rw [collectAll_frameStart, applyLayerReq]
  simp only [State.setDiag_frame, State.setFrame_frame, hreq]
  unfold layerApplied Spec.newKeymap
  split <;> rename_i h <;> simp [h, applyMo, applySt, State.setKeymap, State.setFrame, State.setDiag]

/-- Pass 1, from the start of a frame. -/
theorem pass1_frameStart (s : State) : pass1 (frameStart s) =
    match (Spec.modeRequests s).head? with
    | none => .go (layerApplied s)
    | some v => if v = 0 then .go ((layerApplied s).setKeymap (Spec.newKeymap s))
        else .halt ((layerApplied s).setHalt ⟨true, 3, v⟩) := by
  have hreq : (layerApplied s).frame.modeReq = (Spec.modeRequests s).head? := by
    rw [← storedScan_modeRequests]; rfl
  rw [pass1, applyLayerReq_collected, applyModeReq, hreq]
  cases h : (Spec.modeRequests s).head? with
  | none => rfl
  | some v =>
    simp only [applyMode]
    by_cases hv : v = 0
    · subst hv
      simp [toggleWasd, layerApplied, Spec.newKeymap, h, State.setKeymap, State.setFrame, State.setDiag]
    · simp only [if_neg hv]; rfl

/-- When the selected mode request has a handler, pass 1 completes with the new KeymapState. -/
theorem pass1_handled {s : State} (h : Spec.ModeHandled s) :
    pass1 (frameStart s) = .go ((layerApplied s).setKeymap (Spec.newKeymap s)) := by
  rw [pass1_frameStart]
  cases hm : (Spec.modeRequests s).head? with
  | none => simp [layerApplied, Spec.newKeymap, hm, State.setKeymap, State.setFrame, State.setDiag]
  | some v => simp [h v hm]

/-- When it has none, pass 1 halts. -/
theorem pass1_unhandled {s : State} {v : BitVec 16} (h : (Spec.modeRequests s).head? = some v) (hv : v ≠ 0) :
    pass1 (frameStart s) = .halt ((layerApplied s).setHalt ⟨true, 3, v⟩) := by
  rw [pass1_frameStart, h]
  exact if_neg hv

/-- The report of the frame of `s`, from the words fed. -/
def frameReport (s : State) : Report where
  keys := padKeys s.cfg.kcCap ((Spec.keycodes (Spec.fedNow s)).take s.cfg.kcCap)
  mouse := orMouse (Spec.fedNow s) 0
  joyBtn := Spec.hasJoyBtn (Spec.fedNow s)
  cons := (Spec.consCodes (Spec.fedNow s)).head?.getD 0
  wheel := BitVec.ofInt 8 (wheelStep s.keymap.prevA s.pins.rotA s.pins.rotB)
  x := position (Spec.newKeymap s).wasd (centreX s)
  y := position (Spec.newKeymap s).wasd (centreY s)
  modifier := 0

theorem pressedDirs_eq (s : State) : pressedDirs ((layerApplied s).setKeymap (Spec.newKeymap s)) =
    [Direction.up, .down, .left, .right].filter (Spec.pressed s) := by
  have hp : ((layerApplied s).setKeymap (Spec.newKeymap s)).frame.pressed = Spec.pressed s := by
    funext d; cases d <;> rfl
  rw [pressedDirs, hp]

/-- The words pass 2 feeds in the frame of `s`. -/
theorem fedWords_eq (s : State) : fedWords ((layerApplied s).setKeymap (Spec.newKeymap s)) = Spec.fedNow s := by
  unfold fedWords
  rw [pressedDirs_eq]; rfl

/-- A frame whose mode request has a handler completes. -/
theorem kframe_handled {s : State} (h : Spec.ModeHandled s) :
    kframe s = .go ((((s.setKeymap (Spec.newKeymap s)).setReport (frameReport s)).setDiag
      ((clearedDiag s).emits (Spec.conflicts s ++ Spec.drops s))).setFrame FrameVars.initial) := by
  rw [kframe, pass1_handled h, endFrame, pass2, fedWords_eq, foldl_add]
  simp [DiagRegs.emits_append, discard, finalise, packReport, frameReport, layerApplied, accFrame, reqFrame,
    startFrame, FrameVars.initial, State.setKeymap, State.setReport, State.setDiag, State.setFrame, Spec.drops]

/-- A frame whose mode request has no handler halts. -/
theorem kframe_unhandled {s : State} {v : BitVec 16} (h : (Spec.modeRequests s).head? = some v) (hv : v ≠ 0) :
    kframe s = .halt ((((s.setKeymap { Spec.newKeymap s with wasd := s.keymap.wasd }).setDiag
      ((clearedDiag s).emits (Spec.conflicts s))).setFrame FrameVars.initial).setHalt ⟨true, 3, v⟩) := by
  rw [kframe, pass1_unhandled h hv]; rfl

/-- The mode request has a handler, or the first one is a variant that has none. -/
theorem modeHandled_or (s : State) :
    Spec.ModeHandled s ∨ ∃ v, (Spec.modeRequests s).head? = some v ∧ v ≠ 0 := by
  by_cases h : ∃ v, (Spec.modeRequests s).head? = some v ∧ v ≠ 0
  · exact .inr h
  · exact .inl fun v hv => by_contra fun h0 => h ⟨v, hv, h0⟩

theorem not_modeHandled_iff (s : State) :
    ¬ Spec.ModeHandled s ↔ ∃ v, (Spec.modeRequests s).head? = some v ∧ v ≠ 0 := by
  constructor
  · exact fun h => (modeHandled_or s).resolve_left h
  · rintro ⟨v, hv, h0⟩ h; exact h0 (h v hv)

/-! ### How many diagnostics -/

/-- Pass 1 emits only `STATE_CONFLICT`. -/
theorem conflictLog_event (a b : Bool) (l : List (Nat × MapWord)) :
    ∀ e ∈ Spec.conflictLog a b l, e.event = .stateConflict := by
  induction l generalizing a b with
  | nil => simp [Spec.conflictLog]
  | cons c l ih =>
    intro e he
    simp only [Spec.conflictLog, List.mem_append] at he
    rcases he with (he | he) | he
    · split at he <;> simp_all
    · split at he <;> simp_all
    · exact ih _ _ e he

theorem Spec_ofEvent_all {e : DiagEvent} {l : List DiagEntry} (h : ∀ x ∈ l, x.event = e) : Spec.ofEvent e l = l := by
  simp only [Spec.ofEvent, List.filter_eq_self]
  intro x hx; simp [h x hx]

theorem Spec_ofEvent_none {e e' : DiagEvent} {l : List DiagEntry} (h : ∀ x ∈ l, x.event = e) (hn : e ≠ e') :
    Spec.ofEvent e' l = [] := by
  simp only [Spec.ofEvent, List.filter_eq_nil_iff]
  intro x hx; simp [h x hx, hn]

/-- At most every key, `JOY` and `SCR` is actuated. -/
theorem actuated_length (s : State) : (actuated s).length ≤ s.cfg.nKeys + 2 := by
  have := List.length_filter_le (fun c => s.pins.act.getLsbD c) (scanOrder s.cfg)
  simpa [actuated, scanOrder] using this

/-- A frame feeds a bounded number of words. -/
theorem fedNow_length (s : State) : (Spec.fedNow s).length ≤ s.cfg.nKeys + 6 := by
  have h := actuated_length s
  have h4 : (List.filter (Spec.pressed s) [Direction.up, .down, .left, .right]).length ≤ 4 := List.length_filter_le _ _
  simp only [Spec.fedNow, Spec.fed, List.length_append, List.length_map]
  split <;> simp <;> omega

theorem wf_nKeys {c : Config} (h : c.wf = true) : c.nKeys ≤ 252 := by
  simp only [Config.wf, Bool.and_eq_true, Config.rangesOk, decide_eq_true_eq] at h
  exact h.2.1.1.1.1.1.1.1.1.1.1.1.2

/-! ### The pieces of the report -/

theorem padKeys_length (cap : Nat) (ks : List Byte) : (padKeys cap ks).length = cap := by simp [padKeys]

theorem padKeys_getD (cap j : Nat) (ks : List Byte) (hj : j < cap) : (padKeys cap ks).getD j 0 = ks.getD j 0 := by
  simp [padKeys, List.getD, hj]

/-- The keycode array is the keycodes and then no-event. -/
theorem padKeys_eq {cap : Nat} {ks : List Byte} (h : ks.length ≤ cap) :
    padKeys cap ks = ks ++ List.replicate (cap - ks.length) 0 := by
  apply List.ext_getElem?
  intro j
  simp only [padKeys, List.getElem?_map, List.getElem?_append, List.getElem?_replicate]
  by_cases hj : j < ks.length
  · have hc : j < cap := by omega
    simp [hj, hc, List.getD]
  · by_cases hc : j < cap
    · have : j - ks.length < cap - ks.length := by omega
      simp [hj, hc, this, List.getD]
    · have : ¬ j - ks.length < cap - ks.length := by omega
      simp [hj, hc, this]

theorem keycodes_ne_zero {ws : List MapWord} {k : Byte} (h : k ∈ Spec.keycodes ws) : k ≠ 0 := by
  simp only [Spec.keycodes, List.mem_filterMap] at h
  obtain ⟨m, -, hm⟩ := h
  split at hm
  · rename_i hk; simp only [Option.some.injEq] at hm; subst hm; exact hk.2
  · simp at hm

theorem orMouse_bit (ws : List MapWord) (a : BitVec 3) (b : BitVec 2) (hb : b ≠ 3) :
    (orMouse ws a).getLsbD b.toNat = (a.getLsbD b.toNat || Spec.hasMouse ws b) := by
  have hflag : ∀ c b : BitVec 2, b ≠ 3 → (mouseFlag c).getLsbD b.toNat = (c == b) := by decide
  induction ws generalizing a with
  | nil => simp [orMouse, Spec.hasMouse]
  | cons m ws ih =>
    have h1 : orMouse (m :: ws) a = orMouse ws (orMouse [m] a) := rfl
    rw [h1, ih]
    by_cases hm : kindOf m = some .mouse
    · simp [orMouse, Spec.hasMouse, hm, hflag _ _ hb, Bool.or_assoc]
    · simp [orMouse, Spec.hasMouse, hm]

theorem centreX_range (s : State) : -65535 ≤ centreX s ∧ centreX s ≤ 65535 := by
  have h1 := @BitVec.toInt_lt 16 s.pins.sx
  have h2 := @BitVec.le_toInt 16 s.pins.sx
  have h3 := @BitVec.toInt_lt 16 s.cfg.xc
  have h4 := @BitVec.le_toInt 16 s.cfg.xc
  simp only [centreX]
  omega

theorem centreY_range (s : State) : -65535 ≤ centreY s ∧ centreY s ≤ 65535 := by
  have h1 := @BitVec.toInt_lt 16 s.pins.sy
  have h2 := @BitVec.le_toInt 16 s.pins.sy
  have h3 := @BitVec.toInt_lt 16 s.cfg.yc
  have h4 := @BitVec.le_toInt 16 s.cfg.yc
  simp only [centreY]
  omega

/-- The position fields hold the centred coordinates exactly: nothing wraps. -/
theorem position_toInt (w : Bool) {c : Int} (h : -65535 ≤ c ∧ c ≤ 65535) :
    (position w c).toInt = if w then 0 else c := by
  cases w
  · simp only [position, Bool.false_eq_true, ↓reduceIte]
    exact BitVec.toInt_ofInt_eq_self (by omega) (by omega) (by omega)
  · simp [position]

end Sys2Proof.Machine
end

