-- ==== Sys2Proof/Laws/Step.lean ====
section
/-! SUPPORT. What a step can do, once: the inversion of `step`, and the frame commands as flows. -/

namespace Sys2Proof.Machine

/-- Every way a step can answer a next state: reset, idle, an illegal command word, a decoded command, a decoded mapping
word. -/
theorem step_next {s t : State} (h : step s = .next t) : s.cfg.wf = true ∧
    ((∃ rest, s.inbox = .reset :: rest ∧ t = takeReset (s.setInbox rest)) ∨
      (s.halt.halted = false ∧
        ((s.inbox = [] ∧ t = s) ∨
          (∃ w p rest e, s.inbox = .command w p :: rest ∧ decodeCmd w = .error e ∧
            t = raiseFatal .illegalCmd (illegalInfo w) ((s.setPins p).setInbox rest)) ∨
          (∃ w p rest i, s.inbox = .command w p :: rest ∧ decodeCmd w = .ok i ∧
            exec i ((s.setPins p).setInbox rest) = .next t) ∨
          (∃ m rest i, s.inbox = .mapping m :: rest ∧ decodeMap m = .ok i ∧
            exec i (s.setInbox rest) = .next t)))) := by
  unfold step sequencerStep at h
  split at h
  · refine ⟨‹_›, ?_⟩
    unfold takeInput at h
    split at h
    · rename_i rest hin
      cases h
      exact .inl ⟨rest, hin, rfl⟩
    · rename_i w p rest hin
      split at h
      · cases h
      · rename_i hh
        refine .inr ⟨by simpa using hh, .inr ?_⟩
        unfold acceptCommand at h
        split at h
        · rename_i i hd
          exact .inr (.inl ⟨w, p, rest, i, hin, hd, h⟩)
        · rename_i e hd
          cases h
          exact .inl ⟨w, p, rest, e, hin, hd, rfl⟩
    · rename_i m rest hin
      split at h
      · cases h
      · rename_i hh
        refine .inr ⟨by simpa using hh, .inr (.inr (.inr ?_))⟩
        unfold acceptMapping at h
        split at h
        · rename_i i hd
          exact ⟨m, rest, i, hin, hd, h⟩
        · cases h
    · rename_i hin
      split at h
      · cases h
      · rename_i hh
        cases h
        exact .inr ⟨by simpa using hh, .inl ⟨hin, rfl⟩⟩
  · cases h

/-- A running block accepts a command word. -/
theorem step_command {s : State} {w : CmdWord} {p : Pins} {rest : List Input} (hw : s.cfg.wf = true)
    (hr : s.halt.halted = false) (hin : s.inbox = .command w p :: rest) :
    step s = acceptCommand w ((s.setPins p).setInbox rest) := by
  simp [step, sequencerStep, takeInput, hw, hr, hin]

/-- A running block accepts a mapping word. -/
theorem step_mapping {s : State} {m : MapWord} {rest : List Input} (hw : s.cfg.wf = true)
    (hr : s.halt.halted = false) (hin : s.inbox = .mapping m :: rest) :
    step s = acceptMapping m (s.setInbox rest) := by
  simp [step, sequencerStep, takeInput, hw, hr, hin]

/-- The instruction of a command word is one of the five commands. -/
theorem decodeCmd_command {w : CmdWord} {i : Instr} (h : decodeCmd w = .ok i) :
    (∃ idx r g b, i = .lset idx r g b) ∨ i = .lshow ∨ i = .kframe ∨ i = .frame ∨
      ∃ sel ctl layer, i = .klook sel ctl layer := by
  unfold decodeCmd at h
  simp only [ifZero] at h
  repeat' split at h
  all_goals first
    | (cases h; simp)
    | cases h

/-- The instruction of a mapping word is of the word's kind. -/
theorem decodeMap_kind {m : MapWord} {i : Instr} (h : decodeMap m = .ok i) :
    (kindOf m = some .noop ∧ i = .noop) ∨ (kindOf m = some .key ∧ i = .key (argByte m)) ∨
      (kindOf m = some .cons ∧ i = .cons (argBits m)) ∨
      (kindOf m = some .mouse ∧ i = .mouse (argTwo m) ∧ argTwo m ≠ 3) ∨ (kindOf m = some .joybtn ∧ i = .joybtn) ∨
      (kindOf m = some .mo ∧ i = .mo (argTwo m)) ∨ (kindOf m = some .st ∧ i = .st (argTwo m)) ∨
      (kindOf m = some .mode ∧ i = .mode (argBits m)) ∨ (kindOf m = some .trns ∧ i = .trns) := by
  unfold decodeMap at h
  simp only [ifZero] at h
  repeat' split at h
  all_goals first
    | (cases h; simp_all)
    | cases h

/-- A completed or halted `KFRAME` is a next state. -/
theorem execKframe_wf {s : State} (hw : s.cfg.wf = true) : exec .kframe s = .next (kframe s).state := by
  simp [exec, execKframe, hw, Flow.done]

/-- `FRAME`, by the outcome of its `KFRAME` part. -/
theorem execFrame_wf {s : State} (hw : s.cfg.wf = true) : exec .frame s =
    .next (match kframe s with | .go t => transmit t | .halt t => t) := by
  cases h : kframe s <;> simp [exec, execFrame, hw, h]

/-- Only a well-formed configuration has frames. -/
theorem execKframe_next {s t : State} (h : exec .kframe s = .next t) : s.cfg.wf = true ∧ t = (kframe s).state := by
  simp only [exec, execKframe] at h
  split at h
  · exact ⟨‹_›, by cases h; rfl⟩
  · cases h

theorem execFrame_next {s t : State} (h : exec .frame s = .next t) : s.cfg.wf = true ∧
    t = (match kframe s with | .go t => transmit t | .halt t => t) := by
  have hw : s.cfg.wf = true := by
    simp only [exec, execFrame] at h
    split at h
    · assumption
    · cases h
  rw [execFrame_wf hw] at h
  exact ⟨hw, by cases h; rfl⟩

end Sys2Proof.Machine
end

