-- ==== Sys2Proof/Laws/Exec.lean ====
section
/-! SUPPORT. Everything that executing one instruction can do, said once: `exec_next` inverts `exec`, with one case per
way an instruction ends. -/

namespace Sys2Proof.Machine

/-- `Ran s i t`: instruction `i` takes `s` to `t`. -/
inductive Ran (s : State) : Instr → State → Prop where
  | lset {idx r g b : Byte} (h : idx.toNat < s.cfg.nLed) :
      Ran s (.lset idx r g b) (storeColour idx.toNat ⟨r, g, b⟩ s)
  | lsetOut {idx r g b : Byte} (h : s.cfg.nLed ≤ idx.toNat) :
      Ran s (.lset idx r g b) (raiseFatal .ledIndex (idx.setWidth 16) s)
  | lshow : Ran s .lshow (transmit s)
  | kframe (w : s.cfg.wf = true) : Ran s .kframe (kframe s).state
  | frame (w : s.cfg.wf = true) (h : Spec.ModeHandled s) : Ran s .frame (transmit (kframe s).state)
  | frameHalts (w : s.cfg.wf = true) (h : ¬ Spec.ModeHandled s) : Ran s .frame (kframe s).state
  | klook {sel : Table} {ctl : Byte} {layer : LayerIx} (h : ctl.toNat < s.cfg.rowSize sel) :
      Ran s (.klook sel ctl layer) (recordLookup s (collapse s.cfg sel ctl.toNat layer.toNat))
  | klookOut {sel : Table} {ctl : Byte} {layer : LayerIx} (h : s.cfg.rowSize sel ≤ ctl.toNat) :
      Ran s (.klook sel ctl layer) (raiseFatal .illegalCmd (0x05#8 ++ ctl) s)
  | noop : Ran s .noop s
  | key {kc : Byte} : Ran s (.key kc) (addKey kc s)
  | cons {code : BitVec 16} : Ran s (.cons code) (addCons code s)
  | mouse {b : BitVec 2} (h : b ≠ 3) : Ran s (.mouse b) (addMouse b s)
  | joybtn : Ran s .joybtn (addJoyBtn s)
  | mo {n : LayerIx} : Ran s (.mo n) (applyMo n s)
  | st {n : LayerIx} : Ran s (.st n) (applySt n s)
  | modeToggles : Ran s (.mode 0) (toggleWasd s)
  | modeHalts {v : BitVec 16} (h : v ≠ 0) : Ran s (.mode v) (raiseFatal .noHandler v s)
  | trns : Ran s .trns s

/-- `KFRAME` leaves everything outside the keymap unit as it was, and the transients discarded. -/
theorem kframe_state (s : State) : ∃ k r d h,
    (kframe s).state = ((((s.setKeymap k).setReport r).setDiag d).setHalt h).setFrame FrameVars.initial := by
  rcases modeHandled_or s with h | ⟨v, hv, h0⟩
  · exact ⟨Spec.newKeymap s, frameReport s, (clearedDiag s).emits (Spec.conflicts s ++ Spec.drops s), s.halt,
      by rw [kframe_handled h]; rfl⟩
  · exact ⟨{ Spec.newKeymap s with wasd := s.keymap.wasd }, s.report, (clearedDiag s).emits (Spec.conflicts s),
      ⟨true, 3, v⟩, by rw [kframe_unhandled hv h0]; rfl⟩

/-- `KFRAME`, completed or halted, leaves the KeymapState of the tables of 42_keymap_frame R184. -/
theorem kframe_keymap (s : State) : (kframe s).state.keymap = Spec.newKeymap s := by
  rcases modeHandled_or s with h | ⟨v, hv, h0⟩
  · rw [kframe_handled h]; rfl
  · have hne : ¬ v = 0#16 := h0
    rw [kframe_unhandled hv h0]
    simp [Spec.newKeymap, hv, hne]

/-- `FRAME`, by whether its `KFRAME` part completes. -/
theorem frame_cases {s : State} (hw : s.cfg.wf = true) :
    (Spec.ModeHandled s ∧ exec .frame s = .next (transmit (kframe s).state)) ∨
      (¬ Spec.ModeHandled s ∧ exec .frame s = .next (kframe s).state) := by
  rcases modeHandled_or s with h | ⟨v, hv, h0⟩
  · exact .inl ⟨h, by rw [execFrame_wf hw, kframe_handled h]; rfl⟩
  · exact .inr ⟨(not_modeHandled_iff s).2 ⟨v, hv, h0⟩, by rw [execFrame_wf hw, kframe_unhandled hv h0]; rfl⟩

/-- Every way `exec` answers a next state. -/
theorem exec_next {i : Instr} {s t : State} (h : exec i s = .next t) : Ran s i t := by
  cases i with
  | lset idx r g b =>
    simp only [exec, execLset] at h
    split at h <;> rename_i hi <;> cases h
    · exact .lset (by simpa [ledIndexOk] using hi)
    · exact .lsetOut (by simpa [ledIndexOk] using hi)
  | lshow => cases h; exact .lshow
  | kframe => obtain ⟨hw, rfl⟩ := execKframe_next h; exact .kframe hw
  | frame =>
    obtain ⟨hw, -⟩ := execFrame_next h
    rcases frame_cases hw with ⟨hm, e⟩ | ⟨hm, e⟩ <;> rw [e] at h <;> cases h
    · exact .frame hw hm
    · exact .frameHalts hw hm
  | klook sel ctl layer =>
    simp only [exec, execKlook] at h
    split at h <;> rename_i hi <;> cases h
    · exact .klook (by simpa [lookupIndexOk] using hi)
    · exact .klookOut (by simpa [lookupIndexOk] using hi)
  | noop => cases h; exact .noop
  | key kc => cases h; exact .key
  | cons code => cases h; exact .cons
  | mouse b =>
    simp only [exec, execMouse] at h
    split at h <;> cases h
    exact .mouse ‹_›
  | joybtn => cases h; exact .joybtn
  | mo n => cases h; exact .mo
  | st n => cases h; exact .st
  | mode v =>
    cases h
    by_cases hv : v = 0
    · subst hv; exact .modeToggles
    · simp only [applyMode, if_neg hv]; exact .modeHalts hv
  | trns => cases h; exact .trns

/-- A decoded command word always answers a next state. -/
theorem exec_command_next {w : CmdWord} {i : Instr} {s : State} (hd : decodeCmd w = .ok i) (hw : s.cfg.wf = true) :
    ∃ t, exec i s = .next t := by
  rcases decodeCmd_command hd with ⟨idx, r, g, b, rfl⟩ | rfl | rfl | rfl | ⟨sel, ctl, layer, rfl⟩
  · simp only [exec, execLset]; split <;> exact ⟨_, rfl⟩
  · exact ⟨_, rfl⟩
  · exact ⟨_, execKframe_wf hw⟩
  · exact ⟨_, execFrame_wf hw⟩
  · simp only [exec, execKlook]; split <;> exact ⟨_, rfl⟩

/-! ### The accumulator's operations as updates -/

theorem addKey_cases (kc : Byte) (s : State) :
    (kc = 0 ∧ addKey kc s = s) ∨
      (kc ≠ 0 ∧ s.frame.accKeys.length < s.cfg.kcCap ∧
        addKey kc s = s.setFrame { s.frame with accKeys := s.frame.accKeys ++ [kc] }) ∨
      (kc ≠ 0 ∧ s.cfg.kcCap ≤ s.frame.accKeys.length ∧
        addKey kc s = s.setDiag (s.diag.emit .kcOverflow (kc.setWidth 16))) := by
  unfold addKey
  by_cases h0 : kc = 0x00
  · exact .inl ⟨h0, if_pos h0⟩
  · by_cases hl : s.frame.accKeys.length < s.cfg.kcCap
    · exact .inr (.inl ⟨h0, hl, by rw [if_neg h0, if_pos hl]⟩)
    · exact .inr (.inr ⟨h0, by omega, by rw [if_neg h0, if_neg hl]; rfl⟩)

theorem addCons_cases (code : BitVec 16) (s : State) :
    (s.frame.accCons = none ∧ addCons code s = s.setFrame { s.frame with accCons := some code }) ∨
      (s.frame.accCons ≠ none ∧ addCons code s = s.setDiag (s.diag.emit .consConflict code)) := by
  unfold addCons
  cases h : s.frame.accCons with
  | none => exact .inl ⟨rfl, rfl⟩
  | some c => exact .inr ⟨by simp, rfl⟩

end Sys2Proof.Machine
end

