-- ==== Sys2Proof/Laws/Led.lean ====
section
/-! SUPPORT. The colour pipeline's arithmetic, and the transmission in the loop order of 40_led_commands R121. -/

namespace Sys2Proof.Machine

/-- Power scaling computes its quotient exactly: nothing wraps. -/
theorem scale_toNat (cfg : Config) (c : Byte) : (scale cfg c).toNat = c.toNat * cfg.budget.toNat / 255 := by
  have h1 := c.isLt
  have h2 := cfg.budget.isLt
  have h3 : c.toNat * cfg.budget.toNat ≤ 255 * cfg.budget.toNat := Nat.mul_le_mul_right _ (by omega)
  rw [scale, BitVec.toNat_ofNat, Nat.mod_eq_of_lt (by omega)]

/-- Bit reversal moves every bit. -/
theorem bitrev8_bit (v : Byte) (j : Fin 8) : (bitrev8 v).getLsbD j = v.getLsbD (7 - j) := by
  revert v j; decide

/-- The bits of the buffer, with the loops of R121 written out. -/
theorem wireBits_eq (s : State) : wireBits s = Spec.bufferBits s := by
  simp [wireBits, Spec.bufferBits, byteBits]

/-- The cells of the bits of the buffer are the segments of the transmission. -/
theorem wireBits_cells (s : State) : (wireBits s).flatMap bitCell = Spec.transmission s := by
  rw [wireBits, Spec.transmission, List.flatMap_assoc]
  apply List.flatMap_congr
  intro i _
  simp only [byteBits, bitCell, List.flatMap_cons, List.flatMap_nil, List.cons_append, List.nil_append,
    List.append_nil, List.append_assoc]

/-- A transmission leaves every wire trace a sequence of symbols. -/
theorem symbolView_transmit {s : State} {v : List Symbol} (h : symbolView s.wire = some v) :
    symbolView (transmit s).wire = some (v ++ (wireBits s).map Symbol.bit ++ [Symbol.latch]) := by
  rw [transmit_eq]
  show symbolView (s.wire ++ (wireBits s).flatMap bitCell ++ [latch]) = _
  rw [List.append_assoc, symbolView_append h, symbolView_append (symbolView_cells _), symbolView_latch]
  simp

end Sys2Proof.Machine
end

