-- ==== Sys2Proof/Laws/Lookup.lean ====
section
/-! SUPPORT. The collapse walk, one step at a time (41_keymap_lookup R140). -/

namespace Sys2Proof.Machine

variable (cfg : Config) (t : Table) (ix : Nat)

@[simp] theorem collapse_zero : collapse cfg t ix 0 = (cfg.word t 0 ix, 0) := rfl

theorem collapse_transparent {l : Nat} (h : kindOf (cfg.word t (l + 1) ix) = some .trns) :
    collapse cfg t ix (l + 1) = collapse cfg t ix l := by simp [collapse, h]

theorem collapse_opaque {l : Nat} (h : kindOf (cfg.word t (l + 1) ix) ≠ some .trns) :
    collapse cfg t ix (l + 1) = (cfg.word t (l + 1) ix, l + 1) := by simp [collapse, h]

/-- The word found stands in the table, at the layer found, at or below the start. -/
theorem collapse_word (l : Nat) :
    (collapse cfg t ix l).2 ≤ l ∧ (collapse cfg t ix l).1 = cfg.word t (collapse cfg t ix l).2 ix := by
  induction l with
  | zero => simp
  | succ l ih =>
    by_cases h : kindOf (cfg.word t (l + 1) ix) = some .trns
    · rw [collapse_transparent cfg t ix h]
      exact ⟨by omega, ih.2⟩
    · simp [collapse_opaque cfg t ix h]

end Sys2Proof.Machine
end

