-- ==== Sys2Proof/Machine/Assembler.lean ====
section
/-! DEFINITION. The assembler syntax of 30_encoding R100 to R102: a line of text to the commands it stands for and the
snapshot it gives, a mapping word's text to the word. Text is a list of characters; what does not fit is rejected (log 15). -/

namespace Sys2Proof.Asm

open Sys2Proof.Machine

/-- A token of a line. -/
inductive Token where
  | name (cs : List Char)
  | num (n : Nat)
  | comma
  | equals
  | minus
  | lparen
  | rparen
  /-- The opening and the closing brace of a snapshot. -/
  | lbrace
  | rbrace
  | bad
deriving DecidableEq, Repr

/-- The value of a digit, in a base up to 16. -/
def digit (base : Nat) (c : Char) : Option Nat :=
  let n := c.toNat
  let v := if 48 ≤ n ∧ n ≤ 57 then n - 48 else if 97 ≤ n ∧ n ≤ 102 then n - 87 else if 65 ≤ n ∧ n ≤ 70 then n - 55 else 16
  if v < base then some v else none

/-- The value of a sequence of digits, `acc` being what stands before them. -/
def number (base : Nat) : List Char → Nat → Option Nat
  | [], acc => some acc
  | c :: cs, acc => (digit base c).bind (fun d => number base cs (base * acc + d))

/-- A word of the line: a number, decimal or `0x` hexadecimal (R100), or a name. -/
def wordToken (cs : List Char) : Token :=
  match cs with
  | '0' :: 'x' :: d :: ds => match number 16 (d :: ds) 0 with
    | some n => .num n
    | none => .bad
  | c :: rest => match digit 10 c with
    | some _ => match number 10 (c :: rest) 0 with
      | some n => .num n
      | none => .bad
    | none => .name (c :: rest)
  | [] => .bad

/-- A character that stands in words. -/
def wordChar (c : Char) : Bool :=
  let n := c.toNat
  (48 ≤ n && n ≤ 57) || (65 ≤ n && n ≤ 90) || (97 ≤ n && n ≤ 122) || n == 95

/-- A character that is a token by itself. -/
def symbolToken (c : Char) : Token :=
  if c = ',' then .comma
  else if c = '=' then .equals
  else if c = '-' then .minus
  else if c = '(' then .lparen
  else if c = ')' then .rparen
  else if c.toNat = 123 then .lbrace
  else if c.toNat = 125 then .rbrace
  else .bad

/-- The word read so far, in reverse, as a token. -/
def flush (acc : List Char) : List Token := if acc.isEmpty then [] else [wordToken acc.reverse]

/-- The tokens of a line; a comment runs from `;` to the end. -/
def lex : List Char → List Char → List Token
  | [], acc => flush acc
  | c :: cs, acc =>
    if c = ';' then flush acc
    else if wordChar c then lex cs (c :: acc)
    else if c.toNat = 32 ∨ c.toNat = 9 then flush acc ++ lex cs []
    else flush acc ++ symbolToken c :: lex cs []

/-- An operand of `w` bits. -/
def field (w n : Nat) : Option (BitVec w) := if n < 2 ^ w then some (BitVec.ofNat w n) else none

/-- A colour operand triple. -/
def colour (r g b : Nat) : Option Rgb :=
  match field 8 r, field 8 g, field 8 b with
  | some r, some g, some b => some ⟨r, g, b⟩
  | _, _, _ => none

/-- `LSET idx, r, g, b`. -/
def lsetLine (idx r g b : Nat) : Option (List Instr) :=
  match field 8 idx, colour r g b with
  | some idx, some c => some [.lset idx c.r c.g c.b]
  | _, _ => none

/-- `KLOOK sel, ctl, layer`. -/
def klookLine (sel ctl layer : Nat) : Option (List Instr) :=
  match field 1 sel, field 8 ctl, field 2 layer with
  | some sel, some ctl, some layer => some [.klook (if sel = 0 then .layerMap else .dirMap) ctl layer]
  | _, _, _ => none

/-- `LFILL r, g, b` (R102). -/
def lfillLine (cfg : Config) (r g b : Nat) : Option (List Instr) :=
  (colour r g b).map (fun c => Instr.lfill cfg c.r c.g c.b)

/-- A command line without a snapshot: R100, and the pseudo-forms `LOFF` and `LFILL` of R102. -/
def commandLine (cfg : Config) : List Token → Option (List Instr)
  | [.name ['L', 'S', 'E', 'T'], .num idx, .comma, .num r, .comma, .num g, .comma, .num b] => lsetLine idx r g b
  | [.name ['L', 'S', 'H', 'O', 'W']] => some [.lshow]
  | [.name ['K', 'F', 'R', 'A', 'M', 'E']] => some [.kframe]
  | [.name ['F', 'R', 'A', 'M', 'E']] => some [.frame]
  | [.name ['K', 'L', 'O', 'O', 'K'], .num sel, .comma, .num ctl, .comma, .num layer] => klookLine sel ctl layer
  | [.name ['L', 'O', 'F', 'F'], .num idx] => lsetLine idx 0 0 0
  | [.name ['L', 'F', 'I', 'L', 'L'], .num r, .comma, .num g, .comma, .num b] => lfillLine cfg r g b
  | _ => none

/-- A mapping word: R101, and the pseudo-forms of R102. `MOUSE(3)` is reserved. -/
def mappingText : List Token → Option Instr
  | [.name ['N', 'O', 'O', 'P']] => some .noop
  | [.name ['K', 'E', 'Y'], .lparen, .num n, .rparen] => (field 8 n).map .key
  | [.name ['C', 'O', 'N', 'S'], .lparen, .num n, .rparen] => (field 16 n).map .cons
  | [.name ['M', 'O', 'U', 'S', 'E'], .lparen, .num n, .rparen] => if n < 3 then (field 2 n).map .mouse else none
  | [.name ['J', 'O', 'Y', 'B', 'T', 'N']] => some .joybtn
  | [.name ['M', 'O'], .lparen, .num n, .rparen] => (field 2 n).map .mo
  | [.name ['S', 'T'], .lparen, .num n, .rparen] => (field 2 n).map .st
  | [.name ['M', 'O', 'D', 'E'], .lparen, .num n, .rparen] => (field 16 n).map .mode
  | [.name ['T', 'R', 'N', 'S']] => some .trns
  | [.name ['M', 'O', 'U', 'S', 'E', '_', 'L']] => some Instr.mouseL
  | [.name ['M', 'O', 'U', 'S', 'E', '_', 'R']] => some Instr.mouseR
  | [.name ['M', 'O', 'U', 'S', 'E', '_', 'S']] => some Instr.mouseS
  | [.name ['W', 'A', 'S', 'D', '_', 'T', 'O', 'G', 'G', 'L', 'E']] => some Instr.wasdToggle
  | _ => none

/-- The pin of a control named in a snapshot: `K0` and on, `JOY`, `SCR` (10_state R22). -/
def controlIndex (cfg : Config) : List Char → Option Nat
  | ['J', 'O', 'Y'] => some (joyIndex cfg)
  | ['S', 'C', 'R'] => some (scrIndex cfg)
  | 'K' :: d :: ds => (number 10 (d :: ds) 0).bind (fun n => if n < cfg.nKeys then some n else none)
  | _ => none

/-- The names of a control list, up to its closing brace, and what follows. -/
def controls (cfg : Config) : List Token → BitVec 254 → Option (BitVec 254 × List Token)
  | .rbrace :: rest, act => some (act, rest)
  | .name _ :: .comma :: .rbrace :: _, _ => none
  | .name c :: .rbrace :: rest, act => (controlIndex cfg c).map (fun n => (act ||| (1#254 <<< n), rest))
  | .name c :: .comma :: rest, act => (controlIndex cfg c).bind (fun n => controls cfg rest (act ||| (1#254 <<< n)))
  | _, _ => none

/-- A signed sample and what follows. -/
def sample : List Token → Option (BitVec 16 × List Token)
  | .minus :: .num n :: rest => if n ≤ 2 ^ 15 then some (BitVec.ofInt 16 (-n), rest) else none
  | .num n :: rest => if n < 2 ^ 15 then some (BitVec.ofNat 16 n, rest) else none
  | _ => none

/-- The fields of a snapshot, in any number and order; the fields left out keep the values given. The second argument
bounds how many there are. -/
def snapshotFields (cfg : Config) : Nat → List Token → Pins → Option Pins
  | 0, _, _ => none
  | n + 1, ts, p =>
    let next : List Token → Pins → Option Pins := fun ts p =>
      match ts with
      | [.rbrace] => some p
      | .comma :: .rbrace :: _ => none
      | .comma :: rest => snapshotFields cfg n rest p
      | _ => none
    match ts with
    | [.rbrace] => some p
    | .name ['a', 'c', 't'] :: .equals :: .lbrace :: rest =>
      (controls cfg rest 0).bind (fun r => next r.2 { p with act := r.1 })
    | .name ['r', 'o', 't'] :: .equals :: .lparen :: .num a :: .comma :: .num b :: .rparen :: rest =>
      if a < 2 ∧ b < 2 then next rest { p with rotA := a == 1, rotB := b == 1 } else none
    | .name ['s', 't', 'i', 'c', 'k'] :: .equals :: .lparen :: rest =>
      (sample rest).bind (fun x => match x.2 with
        | .comma :: rest => (sample rest).bind (fun y => match y.2 with
          | .rparen :: rest => next rest { p with sx := x.1, sy := y.1 }
          | _ => none)
        | _ => none)
    | _ => none

/-- The snapshot of a line that gives none of its fields: nothing actuated, the phases low, the stick at the centre
(95_test_vectors, Notation). -/
def emptySnapshot (cfg : Config) : Pins where
  act := 0
  rotA := false
  rotB := false
  sx := cfg.xc
  sy := cfg.yc

/-- What a line stands for: the commands, and the snapshot the line gives for them. -/
structure Line where
  commands : List Instr
  snapshot : Option Pins
deriving DecidableEq, Repr

/-- Assemble a command line (R100, R102). Only `KFRAME` and `FRAME` are followed by a snapshot. -/
def line (cfg : Config) (text : List Char) : Option Line :=
  match lex text [] with
  | .name n :: .lbrace :: rest =>
    match commandLine cfg [.name n] with
    | some is =>
      if is = [.kframe] ∨ is = [.frame] then
        (snapshotFields cfg 4 rest (emptySnapshot cfg)).map (fun p => ⟨is, some p⟩)
      else none
    | none => none
  | ts => (commandLine cfg ts).map (fun is => ⟨is, none⟩)

/-- Assemble a mapping word (R101, R102). -/
def mapping (text : List Char) : Option Instr := mappingText (lex text [])

/-- The words of a line. -/
def words (l : Line) : List Word := l.commands.map encode

end Sys2Proof.Asm
end

