-- ==== Sys2Proof/Tests/Slice0.lean ====
section
/-! SUPPORT. Tests. The expected results are the spec's: words are written out from 30_encoding R84 to R86 and R91,
results are the vectors of 95_test_vectors (named `V-…` beside each). Last, for every statement of Obligations.lean
that has hypotheses, a concrete state and operands that meet them all. -/

namespace Sys2Proof.Tests

open Sys2Proof Sys2Proof.Machine

-- One theorem after the other: each kernel evaluation waits for what stands before it, and one thread for each of
-- them at once is more than the memory limit of the check allows.
set_option Elab.async false

/-! ### Helpers -/

/-- The snapshot of 30_encoding R100: the actuated controls, the phases, the stick. -/
def pins (act : List Nat) (a b : Bool) (x y : Int) : Pins :=
  ⟨act.foldl (fun v c => v ||| (1#254 <<< c)) 0, a, b, BitVec.ofInt 16 x, BitVec.ofInt 16 y⟩

/-- A snapshot with the phases low and the stick centred. -/
def snap (act : List Nat) : Pins := pins act false false 512 512

/-- CFG-A at the layers and mode given, otherwise as after reset. -/
def at' (cur sto : LayerIx) (wasd : Bool) : State := { State.reset with keymap := ⟨cur, sto, wasd, false⟩ }

/-- The command word `w` presented with the pins `p`. -/
def give (s : State) (w : CmdWord) (p : Pins) : State := { s with inbox := [.command w p] }

/-- The state after one step on a command word. -/
def after (s : State) (w : CmdWord) (p : Pins) : Option State :=
  match step (give s w p) with
  | .next t => some t
  | .fault _ => none
  | .refused _ => none

/-- The state after one instruction. -/
def ran (i : Instr) (s : State) : Option State :=
  match exec i s with
  | .next t => some t
  | .fault _ => none
  | .refused _ => none

/-- What the read port answers. -/
def reads (o : Option State) (as : List (BitVec 12)) : Option (List (BitVec 32)) :=
  o.map (fun s => as.map (fun a => regRead a s))

/-- CFG-A with one word of `LAYERMAP` replaced (the variants of 95_test_vectors section 1). -/
def withWord (l ix : Nat) (m : MapWord) : Config :=
  { Config.cfgA with layerMap := Config.cfgA.layerMap.set l ((Config.cfgA.layerMap.getD l []).set ix m) }

/-- A fatal halt, code 7. -/
def halted : State := { State.reset with halt := ⟨true, 7, 0x0600⟩ }

/-! ### Well-formedness: each check refuses an ill-formed term -/

theorem test_wf_cfgA : Config.cfgA.wf = true := by decide +kernel
theorem test_wf_invL0 : Config.cfgA.invL0 = true := by decide +kernel
theorem test_wf_mouse : Instr.wf (.mouse 3) = false ∧ Instr.wf (.mouse 2) = true := by decide
theorem test_wf_reserved_kind : (withWord 0 1 0x80000).wordsLegal = false := by decide +kernel
theorem test_wf_reserved_button : (withWord 3 9 0x30003).wordsLegal = false := by decide +kernel
theorem test_wf_dirs : ({ Config.cfgA with dirMap := [[0x50001]] } : Config).dirsInert = false := by decide +kernel
theorem test_wf_white : ({ Config.cfgA with budget := 255 } : Config).whiteBelowMax = false := by decide +kernel
theorem test_wf_order : ({ Config.cfgA with w1 := .g } : Config).orderOk = false := by decide
theorem test_wf_keys_low : ({ Config.cfgA with nKeys := 0 } : Config).rangesOk = false := by decide
theorem test_wf_keys_high : ({ Config.cfgA with nKeys := 253 } : Config).rangesOk = false := by decide
theorem test_wf_cap_low : ({ Config.cfgA with kcCap := 0 } : Config).rangesOk = false := by decide
theorem test_wf_cap_high : ({ Config.cfgA with kcCap := 256 } : Config).rangesOk = false := by decide
theorem test_wf_leds_low : ({ Config.cfgA with nLed := 0 } : Config).rangesOk = false := by decide
theorem test_wf_leds_high : ({ Config.cfgA with nLed := 257 } : Config).rangesOk = false := by decide
theorem test_wf_gamma : ({ Config.cfgA with gamma := [0] } : Config).rangesOk = false := by decide
theorem test_wf_defaults : ({ Config.cfgA with ledDefault := [] } : Config).rangesOk = false := by decide +kernel
theorem test_wf_layers : ({ Config.cfgA with layerMap := [layerA0] } : Config).rangesOk = false := by decide +kernel
theorem test_wf_rows : ({ Config.cfgA with nKeys := 7 } : Config).rangesOk = false := by decide +kernel
theorem test_wf_dir_layers : ({ Config.cfgA with dirMap := [] } : Config).rangesOk = false := by decide +kernel
theorem test_wf_dir_rows :
    ({ Config.cfgA with dirMap := [[0], [0], [0], [0]] } : Config).rangesOk = false := by decide +kernel

/-! ### Decoding: a word of every row, written out from the spec; the rejections by name -/

theorem test_decode_lset : decodeCmd 0x0102FF0000 = .ok (.lset 2 255 0 0) := rfl
theorem test_decode_lset_fields : decodeCmd 0x010A0B0C0D = .ok (.lset 10 11 12 13) := rfl
theorem test_decode_lshow : decodeCmd 0x0200000000 = .ok .lshow := rfl
theorem test_decode_kframe : decodeCmd 0x0300000000 = .ok .kframe := rfl
theorem test_decode_frame : decodeCmd 0x0400000000 = .ok .frame := rfl
theorem test_decode_klook : decodeCmd 0x0501000003 = .ok (.klook .layerMap 1 3) := rfl
theorem test_decode_klook_dir : decodeCmd 0x0500010003 = .ok (.klook .dirMap 0 3) := rfl
theorem test_decode_noop : decodeMap 0x00000 = .ok .noop := rfl
theorem test_decode_key : decodeMap 0x10004 = .ok (.key 4) := rfl
theorem test_decode_cons : decodeMap 0x200E9 = .ok (.cons 0xE9) := rfl
theorem test_decode_mouse : decodeMap 0x30002 = .ok (.mouse 2) := rfl
theorem test_decode_joybtn : decodeMap 0x40000 = .ok .joybtn := rfl
theorem test_decode_mo : decodeMap 0x50001 = .ok (.mo 1) := rfl
theorem test_decode_st : decodeMap 0x60002 = .ok (.st 2) := rfl
theorem test_decode_mode : decodeMap 0x70001 = .ok (.mode 1) := rfl
theorem test_decode_trns : decodeMap 0xF0000 = .ok .trns := rfl
/-- V-X1 to V-X6 and V-C10. -/
theorem test_decode_illegal : decodeCmd 0x0000000000 = .error .reservedOpcode ∧
    decodeCmd 0x0600000000 = .error .reservedOpcode ∧ decodeCmd 0xFF12345678 = .error .reservedOpcode ∧
    decodeCmd 0x0200000001 = .error .mustBeZero ∧ decodeCmd 0x0300010000 = .error .mustBeZero ∧
    decodeCmd 0x0480000000 = .error .mustBeZero ∧ decodeCmd 0x0501020000 = .error .mustBeZero :=
  ⟨rfl, rfl, rfl, rfl, rfl, rfl, rfl⟩
/-- R96: both ends of the reserved kinds, a must-be-zero bit of each shape, and the reserved button. -/
theorem test_decode_reserved : decodeMap 0x80000 = .error .reservedKind ∧ decodeMap 0xE0000 = .error .reservedKind ∧
    decodeMap 0x00001 = .error .mustBeZero ∧ decodeMap 0x10100 = .error .mustBeZero ∧
    decodeMap 0x50004 = .error .mustBeZero ∧ decodeMap 0x38000 = .error .mustBeZero ∧
    decodeMap 0x30003 = .error .reservedButton ∧ decodeMap 0xF8000 = .error .mustBeZero :=
  ⟨rfl, rfl, rfl, rfl, rfl, rfl, rfl, rfl⟩
/-- The table's numbering: command rows have 40 bits, mapping rows 20, which is 24 in whole bytes. -/
theorem test_decode_table : decodeTableWord 40 0x0501000003 = some (.klook .layerMap 1 3) ∧
    decodeTableWord 24 0x60002 = some (.st 2) ∧ decodeTableWord 24 0x30003 = none ∧
    decodeTableWord 40 0 = none ∧ decodeTableWord 40 (2 ^ 40) = none := by decide
/-- A word placed after reset is what the next step runs. -/
theorem test_fetch_command : (match step (State.reset.withFetchWord 40 0x0102FF0000) with
    | .next t => some (regRead 0x102 t) | _ => none) = some 0x00000200 := by decide +kernel
theorem test_fetch_mapping : (match step (State.reset.withFetchWord 24 0x60002) with
    | .next t => some t.keymap.sto | _ => none) = some 2 := by decide +kernel
/-- R102. -/
theorem test_pseudo : Instr.lfill Config.cfgA 1 2 3 = [.lset 0 1 2 3, .lset 1 1 2 3, .lset 2 1 2 3] ∧
    encode Instr.wasdToggle = .map 0x70000 ∧ encode Instr.mouseS = .map 0x30002 ∧
    encode (Instr.loff 1) = .cmd 0x0101000000 := by decide

/-! ### Assembler text (30_encoding R100, R101) -/

theorem test_asm_command : (Asm.line Config.cfgA "LSET  2, 0xFF, 0, 0 ; red".toList).map Asm.words =
    some [.cmd 0x0102FF0000] ∧ (Asm.line Config.cfgA "KLOOK 0, 1, 3".toList).map Asm.words =
    some [.cmd 0x0501000003] := by decide +kernel
theorem test_asm_mapping : ((Asm.mapping "KEY(0x04)".toList).map encode, (Asm.mapping "ST(2)".toList).map encode,
    (Asm.mapping "TRNS".toList).map encode, Asm.mapping "MOUSE(3)".toList) =
    (some (.map 0x10004), some (.map 0x60002), some (.map 0xF0000), none) := by decide +kernel
theorem test_asm_snapshot : (Asm.line Config.cfgA ("KFRAME ".toList ++ [Char.ofNat 123] ++ "act = ".toList
    ++ [Char.ofNat 123] ++ "K0, K2, JOY".toList ++ [Char.ofNat 125] ++ ", rot = (1, 0), stick = (-5, 300)".toList
    ++ [Char.ofNat 125])).map (fun l => (Asm.words l, l.snapshot)) =
    some ([.cmd 0x0300000000], some (pins [0, 2, 6] true false (-5) 300)) := by decide +kernel

/-! ### One step of each instruction -/

/-- V-L11: byte 0 is green, byte 2 blue, each bit-reversed. -/
theorem test_lset : reads (after State.reset 0x01000A64C8 (snap [])) [0x100, 0x101] = some [0x00E40090, 0] := by
  decide +kernel
/-- V-L13. -/
theorem test_lset_out : reads (after State.reset 0x0103102030 (snap [])) [0x000, 0x100] = some [0x00030041, 0] := by
  decide +kernel
/-- V-W4, with one LED set: the first symbols of the wire. -/
theorem test_lshow : (ran .lshow (storeColour 0 ⟨255, 255, 255⟩ State.reset)).map (fun t =>
    (t.wire.length, (symbolView t.wire).map (fun v => v.take 8))) =
    some (145, some [.bit false, .bit false, .bit false, .bit false, .bit false, .bit false, .bit true,
      .bit false]) := by decide +kernel
/-- V-S8: `DOWN`, `LEFT`, then `K1`, at layer 2 with `WASD`. -/
theorem test_kframe : reads (after (at' 2 2 true) 0x0300000000 (pins [1] false false 100 100)) [0x010, 0x00A, 0x001] =
    some [0x00060416, 0, 0x0000001A] := by decide +kernel
/-- V-K12: the layer request is applied, one request is dropped, then the mode variant halts. -/
theorem test_kframe_halts : reads (after (at' 2 2 false) 0x0300000000 (snap [2, 3, 4])) [0x000, 0x001, 0x002] =
    some [0x00010031, 0x00000009, 0x00010000] := by decide +kernel
/-- P3 step 1 as a `FRAME`: the toggle acts in its own frame, the wheel steps, and the buffer is sent. -/
theorem test_frame : (after State.reset 0x0400000000 (pins [4] true true 700 300)).map (fun t =>
    (regRead 0x008 t, regRead 0x010 t, t.wire.length)) = some (0x00010000, 0x00000716, 145) := by decide +kernel
/-- A `FRAME` that halts sends nothing (R198). -/
theorem test_frame_halts : (after (at' 2 2 false) 0x0400000000 (snap [4])).map (fun t => (t.halt.code, t.wire)) =
    some (3, []) := by decide +kernel
/-- V-C3. -/
theorem test_klook : reads (after State.reset 0x0501000003 (snap [])) [0x004] = some [0x02010006] := by decide +kernel
/-- V-C8: `ctl = NCTL`. -/
theorem test_klook_out : reads (after State.reset 0x050A000000 (snap [])) [0x000, 0x004] = some [0x050A0071, 0] := by
  decide +kernel
/-- V-A2: no duplicate check. -/
theorem test_key : ((ran (.key 4) State.reset).bind (ran (.key 4))).map (fun t => t.frame.accKeys) = some [4, 4] := by
  decide +kernel
/-- V-A11: the 27th keycode is dropped with a diagnostic. -/
theorem test_key_overflow :
    (ran (.key 0x22) { State.reset with frame := { FrameVars.initial with accKeys := List.replicate 26 4 } }).map
      (fun t => (t.frame.accKeys.length, t.diag.ovf, t.diag.log)) = some (26, 1, [⟨.kcOverflow, 0x0022⟩]) := by
  decide +kernel
/-- V-A6. -/
theorem test_cons : ((ran (.cons 0xCD) State.reset).bind (ran (.cons 0xE9))).map (fun t =>
    (t.frame.accCons, t.diag.cons, t.diag.log)) = some (some 0xCD, 1, [⟨.consConflict, 0x00E9⟩]) := by decide +kernel
/-- V-A4. -/
theorem test_mouse : ((ran (.mouse 0) State.reset).bind (ran (.mouse 2))).map (fun t => t.frame.accMouse) = some 5 := by
  decide +kernel
/-- V-A5. -/
theorem test_joybtn : (ran .joybtn State.reset).map (fun t => (t.frame.accJoy, t.report.joyBtn)) =
    some (true, false) := by decide +kernel
/-- V-A7. -/
theorem test_noop : ran .noop State.reset = some State.reset := rfl
theorem test_trns : ran .trns State.reset = some State.reset := rfl
/-- V-K1, V-K3, V-K5: what the applied words leave. -/
theorem test_mo : (ran (.mo 1) State.reset).map (fun t => t.keymap) = some ⟨1, 0, false, false⟩ := by decide +kernel
theorem test_st : (ran (.st 2) State.reset).map (fun t => t.keymap) = some ⟨2, 2, false, false⟩ := by decide +kernel
theorem test_mode : (ran (.mode 0) State.reset).map (fun t => t.keymap) = some ⟨0, 0, true, false⟩ := by
  decide +kernel
/-- V-K11. -/
theorem test_mode_halts : (ran (.mode 1) State.reset).map (fun t => (t.halt, t.keymap.wasd)) =
    some (⟨true, 3, 0x0001⟩, false) := by decide +kernel

/-! ### Witnesses: states and operands that meet the hypotheses of each statement, at the ends of their ranges -/

/-- `DecodeOfEncodeIsIdentity`: every row has a well-formed instruction; button 2 is the last legal one. -/
theorem witness_wf_rows : [Instr.lset 0 0 0 0, .lset 255 255 255 255, .lshow, .kframe, .frame, .klook .dirMap 255 3,
    .noop, .key 255, .cons 0xFFFF, .mouse 2, .joybtn, .mo 3, .st 3, .mode 0xFFFF, .trns].all Instr.wf = true := by decide

/-- `EncodeOfDecodeIsIdentity`. -/
theorem witness_decodes : decode (.cmd 0x0503010002) = .ok (.klook .dirMap 3 2) ∧
    decode (.map 0x30002) = .ok (.mouse 2) := ⟨rfl, rfl⟩

/-- `IllegalCommandWordHalts`: the ends of the reserved opcodes, and must-be-zero bits at the ends of their fields. -/
theorem witness_illegal : Spec.IllegalCmd 0x0000000000 ∧ Spec.IllegalCmd 0x0600000000 ∧ Spec.IllegalCmd 0xFF00000000 ∧
    Spec.IllegalCmd 0x0200000001 ∧ Spec.IllegalCmd 0x0480000000 ∧ Spec.IllegalCmd 0x0500800000 ∧
    Spec.IllegalCmd 0x0500020000 ∧ Spec.IllegalCmd 0x0500008000 ∧ Spec.IllegalCmd 0x0500000004 := by
  refine ⟨?_, ?_, ?_, ?_, ?_, ?_, ?_, ?_, ?_⟩ <;> (unfold Spec.IllegalCmd; decide)

/-- The other premises of the statements about an accepted command: a well-formed running block with the word
presented. -/
theorem witness_commanded (w : CmdWord) (p : Pins) : (give State.reset w p).cfg.wf = true ∧
    Running (give State.reset w p) ∧ Spec.Commanded (give State.reset w p) w p [] :=
  ⟨test_wf_cfgA, rfl, rfl⟩

/-- `IllegalCommandWordHalts`, last clause, and `KlookRecordsLookup`, second: the first index out of range. -/
theorem witness_klook_out : decodeCmd 0x050A000000 = .ok (.klook .layerMap 10 0) ∧
    State.reset.cfg.rowSize .layerMap ≤ (10 : Byte).toNat ∧ decodeCmd 0x0504010000 = .ok (.klook .dirMap 4 0) ∧
    State.reset.cfg.rowSize .dirMap ≤ (4 : Byte).toNat := ⟨rfl, by decide, rfl, by decide⟩

/-- `KlookRecordsLookup`, first clause: the last index in range. -/
theorem witness_klook_in : (9 : Byte).toNat < State.reset.cfg.nKeys + 4 ∧ (3 : Byte).toNat < 4 := by decide

/-- `ReservedMappingWordsRefused`: a table with a reserved word, one of each sort. -/
theorem witness_reserved : Spec.ReservedMap 0x80000 ∧ Spec.ReservedMap 0xE0000 ∧ Spec.ReservedMap 0xF0001 ∧
    Spec.ReservedMap 0x10100 ∧ Spec.ReservedMap 0x38000 ∧ Spec.ReservedMap 0x30003 := by
  refine ⟨?_, ?_, ?_, ?_, ?_, ?_⟩ <;> (unfold Spec.ReservedMap; decide)
theorem witness_reserved_in : (0x80000 : MapWord) ∈ (State.resetOf (withWord 0 1 0x80000)).cfg.words := by
  decide +kernel

/-- `StepRunsDecodedInstruction`, both clauses. -/
theorem witness_step_command : Spec.Commanded (give State.reset 0x0200000000 (snap [])) 0x0200000000 (snap []) [] ∧
    decodeCmd 0x0200000000 = .ok .lshow := ⟨rfl, rfl⟩
theorem witness_step_mapping :
    ({ State.reset with inbox := [.mapping 0x10004] } : State).inbox = .mapping 0x10004 :: [] ∧
      decodeMap 0x10004 = .ok (.key 4) := ⟨rfl, rfl⟩

/-- `HaltedBlockHasNoStep`: halted, with a word presented and with none. -/
theorem witness_halted : halted.cfg.wf = true ∧ halted.halt.halted = true ∧ halted.inbox.head? ≠ some .reset ∧
    (give halted 0x0200000000 (snap [])).inbox.head? ≠ some .reset := ⟨test_wf_cfgA, rfl, by decide, by decide⟩

/-- `OnlyResetLeavesHalt` and `ResetClearsEverything`: a halted block steps when reset is asserted (V-X8). -/
theorem witness_reset : ({ halted with inbox := [.reset] } : State).halt.halted = true ∧
    (match step { halted with inbox := [.reset] } with | .next t => some t.halt.halted | _ => none) = some false :=
  ⟨rfl, by decide +kernel⟩

/-- `IllFormedConfigurationRefused`: a state with an ill-formed configuration. -/
theorem witness_ill_formed : (State.resetOf (withWord 3 9 0x30003)).cfg.wf = false := by decide +kernel

/-- `ConfigurationNeverChanges` and the other statements about a step that answers a next state; `IdleBlockHoldsState`:
a block with nothing presented. -/
theorem witness_idle : State.reset.inbox = [] ∧ Running State.reset ∧ step State.reset = .next State.reset := by
  refine ⟨rfl, rfl, ?_⟩
  simp [step, sequencerStep, takeInput, State.reset, State.resetOf, test_wf_cfgA]

/-- `LsetStoresCorrectedColour`: the last index in range, and the first out of it. -/
theorem witness_lset : (2 : Byte).toNat < State.reset.cfg.nLed ∧ State.reset.cfg.nLed ≤ (3 : Byte).toNat := by decide

/-- `PowerScalingIsExactFloor`, `WhiteIsClampedToBudget`, `BitReversalIsInvolution`: their premises. -/
theorem witness_scale : (254 : Byte).toNat ≤ (255 : Byte).toNat ∧ bitrev8 0xFF = 0xFF ∧ 7 < 8 := by decide

/-- `LshowSymbolView`: a trace that is not empty. -/
theorem witness_symbols : symbolView (transmit State.reset).wire =
    some ([] ++ (wireBits State.reset).map Symbol.bit ++ [Symbol.latch]) := symbolView_transmit rfl

/-- `CollapseFallsBackToNearest`, its two clauses: `K0` at layer 3 and at layer 1 of CFG-A. -/
theorem witness_collapse : kindOf (Config.cfgA.word .layerMap 3 0) = some .trns ∧
    kindOf (Config.cfgA.word .layerMap 1 0) ≠ some .trns := by decide +kernel

/-- `Layer0InvariantStopsTransparency`: the last control. -/
theorem witness_invL0 : Config.cfgA.invL0 = true ∧ 9 < Config.cfgA.nKeys + 4 := ⟨test_wf_invL0, by decide⟩

/-- `KeyIsAppendedUpToCapacity`: the last keycode kept, and the first dropped. -/
theorem witness_key : ({ FrameVars.initial with accKeys := List.replicate 25 4 } : FrameVars).accKeys.length < 26 ∧
    26 ≤ ({ FrameVars.initial with accKeys := List.replicate 26 4 } : FrameVars).accKeys.length ∧
    State.reset.cfg.kcCap = 26 := by decide

/-- `FirstConsumerCodeWins`: no code recorded, and a recorded code of value 0. -/
theorem witness_cons : State.reset.frame.accCons = none ∧
    ({ FrameVars.initial with accCons := some 0 } : FrameVars).accCons ≠ none := by decide

/-- `AddDispatchesOnKind`: a state-affecting word, and one that is not. -/
theorem witness_add : decodeMap 0x70001 = .ok (.mode 1) ∧ decodeMap 0x10004 = .ok (.key 4) := ⟨rfl, rfl⟩

/-- CFG-A with `K2` (`MO`), `K3` (`ST`), `K4` (`MODE`) and `K0` actuated. -/
def busy : State := { at' 0 0 false with pins := snap [0, 2, 3, 4] }

/-- The same at layer 2, where `K4` is a mode variant without a handler. -/
def doomed : State := { at' 2 2 false with pins := snap [2, 3, 4] }

/-- `KframeStateMachine`, `KframeDiagnostics`, `ConflictsCountLaterRequests`, `KframeReport`, `FrameIsKframeThenLshow`:
a mode request with a handler, and one without. -/
theorem witness_handled : busy.cfg.wf = true ∧ Running busy ∧ Spec.ModeHandled busy := by
  have h : (Spec.modeRequests busy).head? = some 0 := by decide +kernel
  refine ⟨test_wf_cfgA, rfl, fun v hv => ?_⟩
  rw [h] at hv
  exact (Option.some.inj hv).symm

/-- … and `HaltingKframeKeepsReport`. -/
theorem witness_unhandled : doomed.cfg.wf = true ∧ Running doomed ∧ (Spec.modeRequests doomed).head? = some 1 ∧
    ¬ Spec.ModeHandled doomed := by
  have h : (Spec.modeRequests doomed).head? = some 1 := by decide +kernel
  exact ⟨test_wf_cfgA, rfl, h, fun hm => absurd (hm 1 h) (by decide)⟩

/-- `KframeStateMachine`, last clause: the request selected is an `ST`. -/
theorem witness_no_mo : (Spec.layerRequests { at' 0 0 false with pins := snap [3] }).head? = some (.st 2) := by
  decide +kernel

/-- `MomentaryLayerDecays`: the momentary layer 1 is current, and its key has been released (V-K16). -/
theorem witness_decay : Spec.layerRequests { at' 1 0 false with pins := snap [0] } = [] := by decide +kernel

/-- `HeldToggleActsEveryFrame`: `K4` is held (V-K5), alone and together with the momentary layer of `K2`. -/
theorem witness_held : (Spec.modeRequests { at' 0 0 false with pins := snap [4] }).head? = some 0 ∧
    Spec.layerRequests { at' 0 0 false with pins := snap [4] } = [] := by decide +kernel
theorem witness_held_momentary : (Spec.modeRequests { at' 0 0 false with pins := snap [2, 4] }).head? = some 0 ∧
    (Spec.layerRequests { at' 0 0 false with pins := snap [2, 4] }).head? = some (.mo 1) ∧
    ∀ n, (Spec.layerRequests { at' 0 0 false with pins := snap [2, 4] }).head? ≠ some (.st n) := by
  have h : (Spec.layerRequests { at' 0 0 false with pins := snap [2, 4] }).head? = some (.mo 1) := by decide +kernel
  exact ⟨by decide +kernel, h, fun n hn => by rw [h] at hn; cases hn⟩

/-- `ConflictsCountLaterRequests`: `busy` has one layer request too many (42_keymap_frame R178). -/
theorem witness_conflict : (Spec.layerRequests busy, Spec.modeRequests busy) = ([.mo 1, .st 2], [0]) ∧
    (ran .kframe busy).map (fun t => t.diag.conflict) = some 1 := by decide +kernel

/-- `OverflowKeepsTheFirstKeycodes`: capacity 1, three keycodes fed. -/
def cramped : State :=
  { State.resetOf { withWord 0 2 0x10006 with kcCap := 1 } with pins := snap [0, 1, 2] }

theorem witness_overflow : cramped.cfg.wf = true ∧ Spec.ModeHandled cramped ∧
    (Spec.keycodes (Spec.fedNow cramped)).length = cramped.cfg.kcCap + 2 := by
  have h : Spec.modeRequests cramped = [] := by decide +kernel
  refine ⟨by decide +kernel, fun v hv => ?_, by decide +kernel⟩
  rw [h] at hv
  exact absurd hv (by simp)

/-- `KframeDiagnostics`: with `K1 = CONS`, `K2 = CONS`, `K3 = KEY` and capacity 1 the second consumer code is dropped
before the second keycode, in the order they are fed (60_exceptions R215). -/
theorem test_drops_in_order : (ran .kframe { State.resetOf { Config.cfgA with
      kcCap := 1, layerMap := Config.cfgA.layerMap.set 0
        [0x10004, 0x200E9, 0x200CD, 0x10007, 0, 0, 0, 0, 0, 0] } with pins := snap [0, 1, 2, 3] }).map (fun t => t.diag.log) =
    some [⟨.consConflict, 0x00CD⟩, ⟨.kcOverflow, 0x0007⟩] := by decide +kernel

/-- `RotaryDecode`: no change; a change with phase B different; a change with phase B equal (V-R2, V-R5, V-R1). -/
theorem witness_rotary : (pins [] false true 0 0).rotA = State.reset.keymap.prevA ∧
    (pins [] true false 0 0).rotA ≠ State.reset.keymap.prevA ∧
    (pins [] true false 0 0).rotB ≠ (pins [] true false 0 0).rotA ∧
    (pins [] true true 0 0).rotB = (pins [] true true 0 0).rotA := ⟨rfl, by decide, by decide, rfl⟩

/-- `StickDirections`: just outside and exactly at the thresholds (V-S5, V-S4). -/
theorem witness_stick :
    (stick { State.reset with pins := pins [] false false 613 411 }).frame.right = true ∧
    (stick { State.reset with pins := pins [] false false 613 411 }).frame.down = true ∧
    (stick { State.reset with pins := pins [] false false 612 412 }).frame.right = false ∧
    (stick { State.reset with pins := pins [] false false 612 412 }).frame.down = false := by decide +kernel

/-- `EventsOfEachCommand`, `LayerAndModeChangeOnlyByMapping`: a frame that steps and changes the stored layer and the
mode; a command of each sort that halts. -/
theorem witness_changes : (after State.reset 0x0300000000 (snap [3, 4])).map (fun t => (t.keymap.sto, t.keymap.wasd)) =
    some (2, true) := by decide +kernel
theorem witness_halts : [(0x0103000000, 0), (0x050A000000, 0), (0x0600000000, 0), (0x0300000000, 2)].map
    (fun (wl : CmdWord × LayerIx) => (after (at' wl.2 wl.2 false) wl.1 (snap [4])).map (fun t => t.halt.code)) =
    [some 4, some 7, some 7, some 3] := by decide +kernel

/-- `OnlyLsetWritesLedBuffer`, `OnlyCompletedFramesWriteReport`, `OnlyKlookWritesLookup`, `TracesAreAppendOnly`: steps
that do change what each is about. -/
theorem witness_led_changes : (after State.reset 0x0102FF0000 (snap [])).map (fun t => ledByte t 2 1) = some 0x02 ∧
    ledByte State.reset 2 1 = 0x00 := by decide +kernel
theorem witness_report_changes : (after State.reset 0x0300000000 (snap [0])).map (fun t => t.report.keys.head?) =
    some (some 4) := by decide +kernel
theorem witness_lookup_changes : (after State.reset 0x0501000003 (snap [])).map (fun t => t.lookup) =
    some ⟨0x10006, 2⟩ := by decide +kernel
theorem witness_traces_grow : (after State.reset 0x0400000000 (snap [2, 3])).map (fun t => (t.diag.log, t.wire.length)) =
    some ([⟨.stateConflict, 0x0003⟩], 145) := by decide +kernel

/-- `CommandsDiscardTransients`. -/
theorem witness_transients : TransientsDiscarded (give State.reset 0x0300000000 (snap [0])) ∧
    ∀ m rest, (give State.reset 0x0300000000 (snap [0])).inbox ≠ .mapping m :: rest :=
  ⟨rfl, fun _ _ => by simp [give]⟩

/-- `StepKeepsInvariant`: a state with the invariant that is not the reset state, and steps. -/
theorem witness_inv : Inv (give State.reset 0x0400000000 (snap [0])) :=
  ⟨test_wf_cfgA, Memory.wf_nil _ _,
    ⟨by decide, fun j hj _ => by
      have h : ∀ i, i < 27 → (give State.reset 0x0400000000 (snap [0])).report.keys.getD i 0 = 0 := by decide +kernel
      exact h (j + 1) (Nat.lt_succ_of_lt hj)⟩,
    ⟨by decide, fun k hk => absurd hk (List.not_mem_nil)⟩,
    ⟨.inr (.inl rfl), by decide, by decide, by decide, by decide, rfl⟩, ⟨rfl, rfl⟩, rfl, rfl⟩

/-- `ReadPortMap`: the last keycode word, and the last LED. -/
theorem witness_read_port : 63 < 64 ∧ 3 < 4 ∧ 2 < State.reset.cfg.nLed ∧ 2 < 256 := by decide

/-- `UnmappedReadsAreZero`: the ends of each hole. -/
theorem witness_unmapped : [0x005, 0x007, 0x00C, 0x00F, 0x050, 0x0FF, 0x103, 0xFFF].map
    (fun a => regRead a halted) = List.replicate 8 0 ∧ 0x100 + State.reset.cfg.nLed ≤ (0x103 : BitVec 12).toNat := by
  decide +kernel

/-- `ScanTakesActuatedControlsInOrder`: bits of two keys, `JOY`, `SCR` and the two rotary indices; `WASD = 0`. -/
theorem witness_scan : actuated { State.reset with pins := snap [9, 8, 7, 6, 5, 0] } = [0, 5, 6, 7] ∧
    State.reset.keymap.wasd = false := by decide +kernel

/-- `UnscannedBitsHaveNoEffect`: the lowest and the highest bit outside the scan of CFG-A. -/
theorem witness_unscanned : State.reset.cfg.wf = true ∧
    ∀ c, c < State.reset.cfg.nKeys + 2 → (snap [8, 253]).act.getLsbD c = State.reset.pins.act.getLsbD c :=
  ⟨test_wf_cfgA, by decide +kernel⟩

end Sys2Proof.Tests
end

-- Proofs of the scope family (00_scope): the step's dispatch, WF_CONFIG and INV_L0.

namespace Sys2Proof

open Machine

/-! ### WF_CONFIG clause by clause (00_scope R6) -/

theorem Config.wf_iff {c : Config} : c.wf = true ↔
    c.wordsLegal = true ∧ c.dirsInert = true ∧ c.whiteBelowMax = true ∧ c.rangesOk = true := by
  simp [Config.wf, and_assoc]

theorem Config.wordsLegal_iff {c : Config} : c.wordsLegal = true ↔ ∀ m ∈ c.words, mapLegal m = true :=
  List.all_eq_true

/-- A kind, or the absence of one, is inert when it is none of the three state-affecting kinds (30_encoding R97). -/
theorem any_stateAffecting_eq_false_iff (k : Option Kind) :
    k.any Kind.stateAffecting = false ↔ k ≠ some .mo ∧ k ≠ some .st ∧ k ≠ some .mode := by
  cases k with
  | none => simp
  | some k => cases k <;> decide

theorem Config.dirsInert_iff {c : Config} : c.dirsInert = true ↔
    ∀ m ∈ c.dirMap.flatten, kindOf m ≠ some .mo ∧ kindOf m ≠ some .st ∧ kindOf m ≠ some .mode := by
  simp only [Config.dirsInert, List.all_eq_true, Bool.not_eq_true', any_stateAffecting_eq_false_iff]

theorem Config.whiteBelowMax_iff {c : Config} : c.whiteBelowMax = true ↔ c.gammaAt c.budget ≠ 255 :=
  bne_iff_ne

theorem Channel.forall_iff {P : Channel → Prop} : (∀ x, P x) ↔ P .r ∧ P .g ∧ P .b :=
  ⟨fun h => ⟨h .r, h .g, h .b⟩, fun ⟨hr, hg, hb⟩ x => match x with | .r => hr | .g => hg | .b => hb⟩

/-- Three channels are pairwise distinct exactly when every channel is among them: there are three in all. -/
theorem Channel.distinct_iff_cover : ∀ u v w : Channel,
    (u ≠ v ∧ v ≠ w) ∧ u ≠ w ↔ ∀ x, x = u ∨ x = v ∨ x = w := by
  simp [Channel.forall_iff]

/-- `WIRE_ORDER` is a permutation (00_scope R5): no channel is left out of it. -/
theorem Config.orderOk_iff {c : Config} :
    c.orderOk = true ↔ ∀ x : Channel, x = c.w0 ∨ x = c.w1 ∨ x = c.w2 := by
  simp only [Config.orderOk, Bool.and_eq_true, bne_iff_ne, Channel.distinct_iff_cover]

theorem Config.rangesOk_iff {c : Config} : c.rangesOk = true ↔
    1 ≤ c.nKeys ∧ c.nKeys ≤ 252 ∧ 1 ≤ c.kcCap ∧ c.kcCap ≤ 255 ∧ 1 ≤ c.nLed ∧ c.nLed ≤ 256 ∧
      c.gamma.length = 256 ∧ (∀ x : Channel, x = c.w0 ∨ x = c.w1 ∨ x = c.w2) ∧ c.ledDefault.length = c.nLed ∧
      c.layerMap.length = 4 ∧ (∀ row ∈ c.layerMap, row.length = c.nKeys + 4) ∧
      c.dirMap.length = 4 ∧ (∀ row ∈ c.dirMap, row.length = 4) := by
  simp only [Config.rangesOk, Bool.and_eq_true, decide_eq_true_eq, beq_iff_eq, List.all_eq_true,
    Config.orderOk_iff, Config.nCtl, and_assoc]

theorem Config.invL0_iff {c : Config} :
    c.invL0 = true ↔ ∀ ix, ix < c.nKeys + 4 → kindOf (c.word .layerMap 0 ix) ≠ some .trns := by
  simp only [Config.invL0, Config.nCtl, List.all_eq_true, List.mem_range, bne_iff_ne]

/-! ### The step on what is presented -/

/-- 00_scope R6 and log 9: outside `WF_CONFIG` nothing is run, not even a reset. -/
theorem step_of_not_wf {s : State} (hw : s.cfg.wf = false) : step s = .refused .illFormedConfig := by
  simp [step, sequencerStep, hw]

theorem acceptCommand_of_decode {w : CmdWord} {i : Instr} (hd : decodeCmd w = .ok i) (s : State) :
    acceptCommand w s = exec i s := by
  simp [acceptCommand, hd]

theorem acceptMapping_of_decode {m : MapWord} {i : Instr} (hd : decodeMap m = .ok i) (s : State) :
    acceptMapping m s = exec i s := by
  simp [acceptMapping, hd]

/-! ### The statements -/

/-- Settles O12: the four clauses of `WF_CONFIG`, `INV_L0`, and the refusal at every step (log 9). -/
theorem illFormedConfigurationRefused : Obligations.IllFormedConfigurationRefused := by
  unfold Obligations.IllFormedConfigurationRefused
  refine ⟨fun c => ?_, fun c => Config.invL0_iff, fun s => step_of_not_wf⟩
  rw [Config.wf_iff, Config.wordsLegal_iff, Config.dirsInert_iff, Config.whiteBelowMax_iff, Config.rangesOk_iff]

/-- Settles O6: an accepted word is decoded and its instruction executed, a command with the pins of its acceptance,
the model's own mapping word (log 3) with the pins as they stand. -/
theorem stepRunsDecodedInstruction : Obligations.StepRunsDecodedInstruction := by
  unfold Obligations.StepRunsDecodedInstruction
  intro s rest i hw hr
  constructor
  · intro w p hin hd
    calc step s = acceptCommand w ((s.setPins p).setInbox rest) := step_command hw hr hin
      _ = exec i { s with pins := p, inbox := rest } := acceptCommand_of_decode hd _
  · intro m hin hd
    calc step s = acceptMapping m (s.setInbox rest) := step_mapping hw hr hin
      _ = exec i { s with inbox := rest } := acceptMapping_of_decode hd _

end Sys2Proof

-- Proofs of the state family (10_state): what one step writes, the invariant, and the elements of state one by one.

namespace Sys2Proof.Machine

/-! ### What a step leaves, by what was presented -/

/-- `Stepped s t`: a step from `s` leaves `t`. One constructor for each way to write the state; every fatal event, of a
command or of a mapping word, is `fatal`, and a frame is `completed`, `sent` (a completed `FRAME`) or `cut` by a halt. -/
inductive Stepped (s : State) : State → Prop where
  | reset {rest : List Input} (hin : s.inbox = .reset :: rest) : Stepped s (takeReset (s.setInbox rest))
  | idle : Stepped s s
  | fatal (e : FatalEvent) (info : BitVec 16) (p : Pins) (rest : List Input) :
      Stepped s (raiseFatal e info ((s.setPins p).setInbox rest))
  | lset {w : CmdWord} {p : Pins} {rest : List Input} {idx r g b : Byte} (hin : Spec.Commanded s w p rest)
      (hd : decodeCmd w = .ok (.lset idx r g b)) (hi : idx.toNat < s.cfg.nLed) :
      Stepped s (storeColour idx.toNat ⟨r, g, b⟩ ((s.setPins p).setInbox rest))
  | lshow {w : CmdWord} {p : Pins} {rest : List Input} (hin : Spec.Commanded s w p rest)
      (hd : decodeCmd w = .ok .lshow) : Stepped s (transmit ((s.setPins p).setInbox rest))
  | klook {w : CmdWord} {p : Pins} {rest : List Input} {sel : Table} {ctl : Byte} {layer : LayerIx}
      (hr : Running s) (hin : Spec.Commanded s w p rest) (hd : decodeCmd w = .ok (.klook sel ctl layer))
      (hi : ctl.toNat < s.cfg.rowSize sel) (found : MapWord × Nat) :
      Stepped s (recordLookup ((s.setPins p).setInbox rest) found)
  | completed {w : CmdWord} {p : Pins} {rest : List Input} (hr : Running s) (hin : Spec.Commanded s w p rest)
      (hd : decodeCmd w = .ok .kframe) (hm : Spec.ModeHandled ((s.setPins p).setInbox rest)) :
      Stepped s (kframe ((s.setPins p).setInbox rest)).state
  | sent {w : CmdWord} {p : Pins} {rest : List Input} (hr : Running s) (hin : Spec.Commanded s w p rest)
      (hd : decodeCmd w = .ok .frame) (hm : Spec.ModeHandled ((s.setPins p).setInbox rest)) :
      Stepped s (transmit (kframe ((s.setPins p).setInbox rest)).state)
  | cut {w : CmdWord} {p : Pins} {rest : List Input} (hin : Spec.Commanded s w p rest)
      (hd : decodeCmd w = .ok .kframe ∨ decodeCmd w = .ok .frame)
      (hm : ¬ Spec.ModeHandled ((s.setPins p).setInbox rest)) :
      Stepped s (kframe ((s.setPins p).setInbox rest)).state
  | accumulated {m : MapWord} {rest : List Input} (hin : s.inbox = .mapping m :: rest) :
      Stepped s (add (s.setInbox rest) m)
  | applied {m : MapWord} {rest : List Input} (hin : s.inbox = .mapping m :: rest) (k : KeymapState) :
      Stepped s ((s.setInbox rest).setKeymap k)

theorem stepped_of_command {s t : State} {w : CmdWord} {p : Pins} {rest : List Input} {i : Instr}
    (hr : Running s) (hin : Spec.Commanded s w p rest) (hd : decodeCmd w = .ok i)
    (h : Ran ((s.setPins p).setInbox rest) i t) : Stepped s t := by
  rcases decodeCmd_command hd with ⟨idx, r, g, b, rfl⟩ | rfl | rfl | rfl | ⟨sel, ctl, layer, rfl⟩
  · cases h with
    | lset hi => exact .lset hin hd hi
    | lsetOut => exact .fatal ..
  · cases h
    exact .lshow hin hd
  · cases h
    by_cases hm : Spec.ModeHandled ((s.setPins p).setInbox rest)
    · exact .completed hr hin hd hm
    · exact .cut hin (.inl hd) hm
  · cases h with
    | frame _ hm => exact .sent hr hin hd hm
    | frameHalts _ hm => exact .cut hin (.inr hd) hm
  · cases h with
    | klook hi => exact .klook hr hin hd hi _
    | klookOut => exact .fatal ..

/-- The mapping words: `MO`, `ST` and `MODE` write KeymapState or halt, every other is what `add` does with it. -/
theorem stepped_of_mapping {s t : State} {m : MapWord} {rest : List Input} {i : Instr}
    (hin : s.inbox = .mapping m :: rest) (hd : decodeMap m = .ok i) (h : Ran (s.setInbox rest) i t) :
    Stepped s t := by
  have hadd : add (s.setInbox rest) m = t → Stepped s t := fun e => e ▸ .accumulated hin
  rcases decodeMap_kind hd with ⟨hk, rfl⟩ | ⟨hk, rfl⟩ | ⟨hk, rfl⟩ | ⟨hk, rfl, -⟩ | ⟨hk, rfl⟩ | ⟨-, rfl⟩ | ⟨-, rfl⟩ |
    ⟨-, hmode⟩ | ⟨hk, rfl⟩
  rotate_left 5
  · cases h
    exact .applied hin _
  · cases h
    exact .applied hin _
  · subst hmode
    generalize argBits m = v at h
    cases h with
    | modeToggles => exact .applied hin _
    | modeHalts => exact .fatal _ _ s.pins rest
  all_goals
    cases h
    exact hadd (by simp [add, hk])

theorem stepped_of_step {s t : State} (h : step s = .next t) : Stepped s t := by
  obtain ⟨-, ⟨rest, hin, rfl⟩ | ⟨hr, ⟨-, rfl⟩ | ⟨w, p, rest, -, -, -, rfl⟩ | ⟨w, p, rest, i, hin, hd, hx⟩ |
    ⟨m, rest, i, hin, hd, hx⟩⟩⟩ := step_next h
  · exact .reset hin
  · exact .idle
  · exact .fatal ..
  · exact stepped_of_command hr hin hd (exec_next hx)
  · exact stepped_of_mapping hin hd (exec_next hx)

/-! ### What a transmission and a frame leave -/

theorem transmit_wire (s : State) :
    (transmit s).wire = s.wire ++ ((wireBits s).flatMap bitCell ++ [latch]) := by
  simp [transmit_eq]

section
variable (s : State)

@[simp] theorem kframe_cfg : (kframe s).state.cfg = s.cfg := by
  obtain ⟨k, r, d, h, e⟩ := kframe_state s
  simp [e]

@[simp] theorem kframe_lookup : (kframe s).state.lookup = s.lookup := by
  obtain ⟨k, r, d, h, e⟩ := kframe_state s
  simp [e]

@[simp] theorem kframe_ledbuf : (kframe s).state.ledbuf = s.ledbuf := by
  obtain ⟨k, r, d, h, e⟩ := kframe_state s
  simp [e]

@[simp] theorem kframe_wire : (kframe s).state.wire = s.wire := by
  obtain ⟨k, r, d, h, e⟩ := kframe_state s
  simp [e]

@[simp] theorem kframe_frame : (kframe s).state.frame = FrameVars.initial := by
  obtain ⟨k, r, d, h, e⟩ := kframe_state s
  simp [e]

/-- A frame clears the counters and appends to `DIAGLOG`. -/
theorem kframe_log : ∃ g, (kframe s).state.diag.log = s.diag.log ++ g := by
  rcases modeHandled_or s with hm | ⟨v, hv, h0⟩
  · exact ⟨Spec.conflicts s ++ Spec.drops s, by simp [kframe_handled hm, clearedDiag]⟩
  · exact ⟨Spec.conflicts s, by simp [kframe_unhandled hv h0, clearedDiag]⟩

theorem kframe_halt_of_handled {s : State} (hm : Spec.ModeHandled s) : (kframe s).state.halt = s.halt := by
  simp [kframe_handled hm]

theorem kframe_report_of_not_handled {s : State} (hm : ¬ Spec.ModeHandled s) :
    (kframe s).state.report = s.report := by
  obtain ⟨v, hv, h0⟩ := (not_modeHandled_iff s).1 hm
  simp [kframe_unhandled hv h0]

end

/-! ### The invariant after reset -/

theorem replicate_eq_padKeys (cap : Nat) : List.replicate cap 0 = padKeys cap [] := by
  simp [padKeys_eq (cap := cap) (ks := []) (by simp)]

/-- Keycodes that are no no-event, padded, stand packed at the front (10_state R31). -/
theorem padKeys_packed {cap j : Nat} {ks : List Byte} (hks : ∀ k ∈ ks, k ≠ 0) (hj : j + 1 < cap)
    (h0 : (padKeys cap ks).getD j 0 = 0) : (padKeys cap ks).getD (j + 1) 0 = 0 := by
  rw [padKeys_getD _ _ _ (by omega)] at h0
  rw [padKeys_getD _ _ _ hj]
  have hlen : ks.length ≤ j := by
    by_contra hlt
    rw [List.getD_eq_getElem _ _ (by omega)] at h0
    exact hks _ (List.getElem_mem _) h0
  exact List.getD_eq_default _ _ (by omega)

theorem resetOf_inv {c : Config} (hw : c.wf = true) : Inv (State.resetOf c) where
  config := hw
  led := Memory.wf_nil _ _
  keys := by
    simp only [KeysPacked, State.resetOf_report, State.resetOf_cfg, Report.empty, replicate_eq_padKeys]
    exact ⟨padKeys_length _ _, fun j => padKeys_packed (by simp)⟩
  acc := ⟨Nat.zero_le _, fun k hk => absurd hk List.not_mem_nil⟩
  report := ⟨.inr (.inl rfl), by simp [Report.empty]⟩
  halt := ⟨rfl, rfl⟩
  lineLow := rfl
  wire := rfl

/-! ### Every operation keeps the invariant -/

section
variable {s : State}

/-- The invariant does not read the inputs. -/
theorem inv_of_inputs (p : Pins) (rest : List Input) (h : Inv s) : Inv ((s.setPins p).setInbox rest) := { h with }

theorem setKeymap_keeps_inv (k : KeymapState) (h : Inv s) : Inv (s.setKeymap k) := { h with }

theorem recordLookup_keeps_inv (found : MapWord × Nat) (h : Inv s) : Inv (recordLookup s found) := { h with }

theorem raiseFatal_keeps_inv (e : FatalEvent) (info : BitVec 16) (h : Inv s) : Inv (raiseFatal e info s) :=
  { h with halt := e.code_cases }

theorem storeColour_keeps_inv {i : Nat} (col : Rgb) (hi : i < s.cfg.nLed) (h : Inv s) :
    Inv (storeColour i col s) :=
  { h with led := storeColour_canonical col hi h.led }

theorem transmit_keeps_inv (h : Inv s) : Inv (transmit s) := by
  obtain ⟨v, hv⟩ := Option.isSome_iff_exists.1 h.wire
  have hwire := symbolView_transmit hv
  rw [transmit_eq] at hwire ⊢
  exact { h with lineLow := rfl, wire := by rw [hwire]; rfl }

theorem accFrame_bounded (m : MapWord) (h : AccBounded s) :
    (accFrame s.cfg.kcCap s.frame [m]).accKeys.length ≤ s.cfg.kcCap ∧
      ∀ k ∈ (accFrame s.cfg.kcCap s.frame [m]).accKeys, k ≠ 0 := by
  obtain ⟨hlen, hne⟩ := h
  simp only [accFrame, List.length_append, List.length_take, List.mem_append]
  refine ⟨by omega, fun k hk => ?_⟩
  rcases hk with hk | hk
  · exact hne k hk
  · exact keycodes_ne_zero (List.mem_of_mem_take hk)

theorem add_keeps_inv (m : MapWord) (h : Inv s) : Inv (add s m) := by
  rw [add_spec]
  exact { h with acc := accFrame_bounded m h.acc }

/-- The report of a completed frame is in range (10_state R35 to R37). -/
theorem frameReport_inRange (s : State) :
    ((frameReport s).wheel = 0xFF ∨ (frameReport s).wheel = 0x00 ∨ (frameReport s).wheel = 0x01) ∧
      -65535 ≤ (frameReport s).x.toInt ∧ (frameReport s).x.toInt ≤ 65535 ∧
      -65535 ≤ (frameReport s).y.toInt ∧ (frameReport s).y.toInt ≤ 65535 ∧ (frameReport s).modifier = 0 := by
  have hwheel : ∀ prevA a b : Bool, BitVec.ofInt 8 (wheelStep prevA a b) = 0xFF ∨
      BitVec.ofInt 8 (wheelStep prevA a b) = 0x00 ∨ BitVec.ofInt 8 (wheelStep prevA a b) = 0x01 := by decide
  have hx := centreX_range s
  have hy := centreY_range s
  simp only [frameReport, position_toInt _ hx, position_toInt _ hy]
  refine ⟨hwheel _ _ _, ?_⟩
  split <;> exact ⟨by omega, by omega, by omega, by omega, trivial⟩

theorem frameReport_packed (s : State) : (frameReport s).keys.length = s.cfg.kcCap ∧
    ∀ j, j + 1 < s.cfg.kcCap → (frameReport s).keys.getD j 0 = 0 → (frameReport s).keys.getD (j + 1) 0 = 0 :=
  ⟨padKeys_length _ _, fun _ => padKeys_packed fun _ hk => keycodes_ne_zero (List.mem_of_mem_take hk)⟩

/-- A frame keeps the invariant, completed or cut short by a halt. -/
theorem kframe_keeps_inv (h : Inv s) : Inv (kframe s).state := by
  have hacc : FrameVars.initial.accKeys.length ≤ s.cfg.kcCap ∧ ∀ k ∈ FrameVars.initial.accKeys, k ≠ 0 :=
    ⟨Nat.zero_le _, fun k hk => absurd hk List.not_mem_nil⟩
  rcases modeHandled_or s with hm | ⟨v, hv, h0⟩
  · rw [kframe_handled hm]
    exact { h with keys := frameReport_packed s, acc := hacc, report := frameReport_inRange s }
  · rw [kframe_unhandled hv h0]
    exact { h with acc := hacc, halt := .inl rfl }

theorem stepped_keeps_inv {t : State} (h : Inv s) (hst : Stepped s t) : Inv t := by
  cases hst with
  | reset => exact inv_of_inputs _ _ (resetOf_inv h.config)
  | idle => exact h
  | fatal e info p rest => exact raiseFatal_keeps_inv e info (inv_of_inputs p rest h)
  | lset _ _ hi => exact storeColour_keeps_inv _ hi (inv_of_inputs _ _ h)
  | lshow => exact transmit_keeps_inv (inv_of_inputs _ _ h)
  | klook _ _ _ _ found => exact recordLookup_keeps_inv found (inv_of_inputs _ _ h)
  | completed => exact kframe_keeps_inv (inv_of_inputs _ _ h)
  | sent => exact transmit_keeps_inv (kframe_keeps_inv (inv_of_inputs _ _ h))
  | cut => exact kframe_keeps_inv (inv_of_inputs _ _ h)
  | accumulated => exact add_keeps_inv _ (inv_of_inputs s.pins _ h)
  | applied _ k => exact setKeymap_keeps_inv k (inv_of_inputs s.pins _ h)

end

/-- Settles O52, operation by operation. -/
theorem stepKeepsInvariant : Obligations.StepKeepsInvariant := by
  unfold Obligations.StepKeepsInvariant
  exact fun _ _ hinv h => stepped_keeps_inv hinv (stepped_of_step h)

/-- Settles O51; the configuration of `State.reset` is CFG-A (log 1), well-formed by evaluation. -/
theorem resetHasInvariant : Obligations.ResetHasInvariant := by
  unfold Obligations.ResetHasInvariant
  exact ⟨fun _ => resetOf_inv, resetOf_inv (by decide +kernel)⟩

/-! ### The elements of state, one by one -/

/-- A cell that is not listed reads as the corrected default colour (70_reset R242). -/
theorem ledByte_resetOf (c : Config) (i : Nat) {k : Nat} (hk : k < 3) :
    ledByte (State.resetOf c) i k = correct c (ledDefault c i) k := by
  have hdiv : ledKey i k / 3 = i := by unfold ledKey; omega
  have hmod : ledKey i k % 3 = k := by unfold ledKey; omega
  simp [ledByte, Memory.read, ledResetByte, hdiv, hmod]

/-- Settles O9. -/
theorem resetValues : Obligations.ResetValues := by
  unfold Obligations.ResetValues
  intro c
  have hkeys : ∀ j, (State.resetOf c).report.keys.getD j 0 = 0 := fun j => by
    by_cases hj : j < c.kcCap <;> simp [Report.empty, hj]
  exact ⟨rfl, hkeys, List.length_replicate, rfl, rfl, rfl, rfl, rfl, rfl, rfl, rfl,
    fun i _ hk => ledByte_resetOf c i hk, rfl, rfl, rfl, rfl⟩

/-- Settles O13: no way to write the state writes `CFG`. -/
theorem configurationNeverChanges : Obligations.ConfigurationNeverChanges := by
  unfold Obligations.ConfigurationNeverChanges
  intro s t h
  cases stepped_of_step h with
  | idle => rfl
  | _ => simp [takeReset_eq, raiseFatal_eq, storeColour, setLedByte_eq, transmit_eq, recordLookup, add_spec]

/-- Settles O46: only a frame that completes packs a report; the halt registers are then as before. -/
theorem onlyCompletedFramesWriteReport : Obligations.OnlyCompletedFramesWriteReport := by
  unfold Obligations.OnlyCompletedFramesWriteReport
  intro s t h hne
  cases stepped_of_step h with
  | @reset rest hin => exact .inl ⟨rest, hin⟩
  | @completed w p rest hr hin hd hm =>
    have hrun : Running (kframe ((s.setPins p).setInbox rest)).state := by
      simpa [Running, kframe_halt_of_handled hm] using hr
    exact .inr ⟨hrun, w, p, rest, hin, .inl hd⟩
  | @sent w p rest hr hin hd hm =>
    have hrun : Running (transmit (kframe ((s.setPins p).setInbox rest)).state) := by
      simpa [Running, transmit_eq, kframe_halt_of_handled hm] using hr
    exact .inr ⟨hrun, w, p, rest, hin, .inr hd⟩
  | cut hin hd hm => exact absurd (kframe_report_of_not_handled hm) hne
  | idle => exact absurd rfl hne
  | _ => simp [raiseFatal_eq, storeColour, setLedByte_eq, transmit_eq, recordLookup, add_spec] at hne

/-- Settles O47. -/
theorem onlyKlookWritesLookup : Obligations.OnlyKlookWritesLookup := by
  unfold Obligations.OnlyKlookWritesLookup
  intro s t h hne
  cases stepped_of_step h with
  | @reset rest hin => exact .inl ⟨rest, hin⟩
  | @klook w p rest sel ctl layer hr hin hd hi found =>
    exact .inr ⟨hr, w, p, rest, sel, ctl, layer, hin, hd, hi⟩
  | idle => exact absurd rfl hne
  | _ => simp [raiseFatal_eq, storeColour, setLedByte_eq, transmit_eq, add_spec] at hne

/-- Settles O48: an `LSET` of another entry leaves the bytes of this one (`ledByte_storeColour`). -/
theorem onlyLsetWritesLedBuffer : Obligations.OnlyLsetWritesLedBuffer := by
  unfold Obligations.OnlyLsetWritesLedBuffer
  intro s t i k hk h hne
  have hcfg : t.cfg = s.cfg := configurationNeverChanges s t h
  have hbuf : t.ledbuf ≠ s.ledbuf := fun hl => hne (ledByte_congr hcfg hl i k)
  cases stepped_of_step h with
  | @reset rest hin => exact .inl ⟨rest, hin⟩
  | @lset w p rest idx r g b hin hd hi =>
    refine .inr ⟨w, p, rest, idx, r, g, b, hin, hd, ?_⟩
    by_contra hother
    rw [ledByte_storeColour _ _ _ _ hk, if_neg (Ne.symm hother)] at hne
    exact hne rfl
  | idle => exact absurd rfl hbuf
  | _ => simp [raiseFatal_eq, transmit_eq, recordLookup, add_spec] at hbuf

/-- Settles O49. -/
theorem tracesAreAppendOnly : Obligations.TracesAreAppendOnly := by
  unfold Obligations.TracesAreAppendOnly
  intro s t h
  cases stepped_of_step h with
  | @reset rest hin => exact .inl ⟨rest, hin⟩
  | @lshow w p rest hin hd =>
    exact .inr ⟨⟨[], by simp [transmit_eq]⟩, _, transmit_wire _,
      fun _ => ⟨w, p, rest, hin, .inl hd⟩⟩
  | @sent w p rest _ hin hd _ =>
    obtain ⟨g, hg⟩ := kframe_log ((s.setPins p).setInbox rest)
    exact .inr ⟨⟨g, by simpa [transmit_eq] using hg⟩, _, by rw [transmit_wire, kframe_wire]; rfl,
      fun _ => ⟨w, p, rest, hin, .inr hd⟩⟩
  | completed => exact .inr ⟨kframe_log _, [], by simp, by simp⟩
  | cut => exact .inr ⟨kframe_log _, [], by simp, by simp⟩
  | accumulated => exact .inr ⟨⟨_, by rw [add_spec]; exact DiagRegs.emits_log _ _⟩, [], by simp [add_spec], by simp⟩
  | idle => exact .inr ⟨⟨[], by simp⟩, [], by simp, by simp⟩
  | _ =>
    exact .inr ⟨⟨[], by simp [raiseFatal_eq, storeColour, setLedByte_eq, recordLookup]⟩, [],
      by simp [raiseFatal_eq, storeColour, setLedByte_eq, recordLookup], by simp⟩

/-- Settles O50: the one step that leaves transients is the accumulator's, on a mapping word (log 3). -/
theorem commandsDiscardTransients : Obligations.CommandsDiscardTransients := by
  unfold Obligations.CommandsDiscardTransients TransientsDiscarded
  intro s t hs hno h
  cases stepped_of_step h with
  | idle => exact hs
  | accumulated hin => exact absurd hin (hno _ _)
  | _ => simp [hs, takeReset_eq, raiseFatal_eq, storeColour, setLedByte_eq, transmit_eq, recordLookup]

/-! ### The layer and the mode -/

/-- A frame moves `STO_LAYER` only to the layer of an actuated `ST` (42_keymap_frame R183, R184). -/
theorem newKeymap_sto_change {s : State} (h : (Spec.newKeymap s).sto ≠ s.keymap.sto) :
    ∃ c ∈ actuated s, Spec.layerReqOf (Spec.storedWord s c) = some (.st (Spec.newKeymap s).sto) := by
  have hhead : (Spec.layerRequests s).head? = some (.st (Spec.newKeymap s).sto) := by
    unfold Spec.newKeymap at h ⊢
    cases hl : (Spec.layerRequests s).head? with
    | none => simp [hl] at h
    | some r =>
      cases r with
      | mo n => simp [hl] at h
      | st n => rfl
  exact List.mem_filterMap.1 (List.mem_of_mem_head? hhead)

/-- A frame moves `WASD` only for an actuated `MODE(0)` (42_keymap_frame R181, R184). -/
theorem newKeymap_wasd_change {s : State} (h : (Spec.newKeymap s).wasd ≠ s.keymap.wasd) :
    ∃ c ∈ actuated s, Spec.modeReqOf (Spec.storedWord s c) = some 0 := by
  have hhead : (Spec.modeRequests s).head? = some 0 := by
    by_contra hno
    exact h (if_neg hno)
  exact List.mem_filterMap.1 (List.mem_of_mem_head? hhead)

/-- A command that moves `STO_LAYER` or `WASD` is a frame command, and leaves the KeymapState of R184. -/
theorem command_moves_keymap {s t : State} {w : CmdWord} {p : Pins} {rest : List Input}
    (hc : Spec.Commanded s w p rest) (h : Stepped s t)
    (hne : t.keymap.sto ≠ s.keymap.sto ∨ t.keymap.wasd ≠ s.keymap.wasd) :
    (decodeCmd w = .ok .kframe ∨ decodeCmd w = .ok .frame) ∧
      t.keymap = Spec.newKeymap (Spec.accepted s p rest) := by
  have hsame : ∀ {w' p' rest'}, Spec.Commanded s w' p' rest' → w' = w ∧ p' = p ∧ rest' = rest := by
    intro w' p' rest' h'
    simpa [Spec.Commanded, and_assoc] using h'.symm.trans hc
  cases h with
  | reset hin => cases hin.symm.trans hc
  | accumulated hin => cases hin.symm.trans hc
  | applied hin => cases hin.symm.trans hc
  | completed _ hin hd =>
    obtain ⟨rfl, rfl, rfl⟩ := hsame hin
    exact ⟨.inl hd, kframe_keymap _⟩
  | sent _ hin hd =>
    obtain ⟨rfl, rfl, rfl⟩ := hsame hin
    exact ⟨.inr hd, by rw [transmit_eq]; exact kframe_keymap _⟩
  | cut hin hd =>
    obtain ⟨rfl, rfl, rfl⟩ := hsame hin
    exact ⟨hd, kframe_keymap _⟩
  | idle => simp at hne
  | _ => simp [raiseFatal_eq, storeColour, setLedByte_eq, transmit_eq, recordLookup] at hne

/-- Settles O45. -/
theorem layerAndModeChangeOnlyByMapping : Obligations.LayerAndModeChangeOnlyByMapping := by
  unfold Obligations.LayerAndModeChangeOnlyByMapping
  intro s t w p rest hc h
  constructor
  · intro hne
    obtain ⟨hd, hk⟩ := command_moves_keymap hc (stepped_of_step h) (.inl hne)
    rw [hk] at hne ⊢
    exact ⟨hd, newKeymap_sto_change hne⟩
  · intro hne
    obtain ⟨hd, hk⟩ := command_moves_keymap hc (stepped_of_step h) (.inr hne)
    rw [hk] at hne
    exact ⟨hd, newKeymap_wasd_change hne⟩

end Sys2Proof.Machine

-- Proofs of the memory family (20_memory): the read port's address map, and the repeated transmission.

namespace Sys2Proof.Machine

open Sys2Proof.Laws

/-! ### What each address reads (20_memory R66, R67) -/

theorem regRead_status (s : State) : regRead 0x000 s = statusWord s := rfl
theorem regRead_kstate (s : State) : regRead 0x001 s = kstateWord s := rfl
theorem regRead_diag (s : State) : regRead 0x002 s = s.diag.conflict ++ s.diag.ovf := rfl
theorem regRead_diagCons (s : State) : regRead 0x003 s = 0#16 ++ s.diag.cons := rfl
theorem regRead_lookup (s : State) : regRead 0x004 s = lookupWord s := rfl
theorem regRead_button (s : State) : regRead 0x008 s = buttonWord s := rfl
theorem regRead_reportCons (s : State) : regRead 0x009 s = 0#16 ++ s.report.cons := rfl
theorem regRead_x (s : State) : regRead 0x00A s = s.report.x := rfl
theorem regRead_y (s : State) : regRead 0x00B s = s.report.y := rfl

theorem regRead_key (s : State) {a : BitVec 12} (hlo : 0x010 ≤ a.toNat) (hhi : a.toNat ≤ 0x04F) :
    regRead a s = keyWord s (a.toNat - 0x010) := by
  simp (disch := omega) only [regRead, if_neg]
  exact if_pos ⟨hlo, hhi⟩

theorem regRead_led (s : State) {a : BitVec 12} (h : 0x100 ≤ a.toNat) :
    regRead a s = ledWord s (a.toNat - 0x100) := by
  simp (disch := omega) only [regRead, if_neg]
  exact if_pos h

theorem regRead_keyAddress (s : State) {q : Nat} (hq : q < 64) :
    regRead (BitVec.ofNat 12 (0x010 + q)) s = keyWord s q := by
  have ha : (BitVec.ofNat 12 (0x010 + q)).toNat = 0x010 + q := Nat.mod_eq_of_lt (by omega)
  rw [regRead_key s (by omega) (by omega), ha, Nat.add_sub_cancel_left]

theorem regRead_ledAddress (s : State) {i : Nat} (hi : i < 256) :
    regRead (BitVec.ofNat 12 (0x100 + i)) s = ledWord s i := by
  have ha : (BitVec.ofNat 12 (0x100 + i)).toNat = 0x100 + i := Nat.mod_eq_of_lt (by omega)
  rw [regRead_led s (by omega), ha, Nat.add_sub_cancel_left]

/-- The holes below the LED words. -/
theorem regRead_hole (s : State) {a : BitVec 12} (h : (5 ≤ a.toNat ∧ a.toNat ≤ 7) ∨
    (0x00C ≤ a.toNat ∧ a.toNat ≤ 0x00F) ∨ (0x050 ≤ a.toNat ∧ a.toNat ≤ 0x0FF)) : regRead a s = 0 := by
  simp (disch := omega) only [regRead, if_neg]

theorem ledWord_beyond (s : State) {i : Nat} (h : s.cfg.nLed ≤ i) : ledWord s i = 0 := if_neg (by omega)

theorem ledWord_within (s : State) {i : Nat} (h : i < s.cfg.nLed) :
    ledWord s i = 0#8 ++ ledByte s i 2 ++ ledByte s i 1 ++ ledByte s i 0 := if_pos h

/-! ### The fields of the words -/

theorem statusWord_fields (s : State) :
    (statusWord s).extractLsb' 0 1 = BitVec.ofBool s.halt.halted ∧ (statusWord s).extractLsb' 1 3 = 0 ∧
      (statusWord s).extractLsb' 4 4 = s.halt.code ∧ (statusWord s).extractLsb' 8 8 = 0 ∧
      (statusWord s).extractLsb' 16 16 = s.halt.info := by
  simp (disch := omega) only [statusWord, field_low, field_high, field_all, Nat.reduceSub,
    BitVec.ofNat_eq_ofNat, and_self]

theorem kstateWord_fields (s : State) :
    (kstateWord s).extractLsb' 0 2 = s.keymap.cur ∧ (kstateWord s).extractLsb' 2 2 = s.keymap.sto ∧
      (kstateWord s).extractLsb' 4 1 = BitVec.ofBool s.keymap.wasd ∧
      (kstateWord s).extractLsb' 5 1 = BitVec.ofBool s.keymap.prevA ∧ (kstateWord s).extractLsb' 6 26 = 0 := by
  simp (disch := omega) only [kstateWord, field_low, field_high, field_all, Nat.reduceSub,
    BitVec.ofNat_eq_ofNat, and_self]

theorem lookupWord_fields (s : State) :
    (lookupWord s).extractLsb' 0 20 = s.lookup.res ∧ (lookupWord s).extractLsb' 20 4 = 0 ∧
      (lookupWord s).extractLsb' 24 2 = s.lookup.layer ∧ (lookupWord s).extractLsb' 26 6 = 0 := by
  simp (disch := omega) only [lookupWord, field_low, field_high, field_all, Nat.reduceSub,
    BitVec.ofNat_eq_ofNat, and_self]

theorem buttonWord_fields (s : State) :
    (buttonWord s).extractLsb' 0 3 = s.report.mouse ∧ (buttonWord s).extractLsb' 3 5 = 0 ∧
      (buttonWord s).extractLsb' 8 1 = BitVec.ofBool s.report.joyBtn ∧ (buttonWord s).extractLsb' 9 7 = 0 ∧
      (buttonWord s).extractLsb' 16 8 = s.report.wheel ∧ (buttonWord s).extractLsb' 24 8 = s.report.modifier := by
  simp (disch := omega) only [buttonWord, field_low, field_high, field_all, Nat.reduceSub,
    BitVec.ofNat_eq_ofNat, and_self]

/-- The two halves of a word: the counters and the consumer codes. -/
theorem halves_fields (hi lo : BitVec 16) :
    BitVec.extractLsb' 0 16 (hi ++ lo) = lo ∧ BitVec.extractLsb' 16 16 (hi ++ lo) = hi := by
  simp (disch := omega) only [field_low, field_high, field_all, Nat.reduceSub, and_self]

/-- The four bytes of a word: the keycodes and the LEDs. -/
theorem bytes_fields (b₃ b₂ b₁ b₀ : Byte) :
    BitVec.extractLsb' 0 8 (b₃ ++ b₂ ++ b₁ ++ b₀) = b₀ ∧ BitVec.extractLsb' 8 8 (b₃ ++ b₂ ++ b₁ ++ b₀) = b₁ ∧
      BitVec.extractLsb' 16 8 (b₃ ++ b₂ ++ b₁ ++ b₀) = b₂ ∧ BitVec.extractLsb' 24 8 (b₃ ++ b₂ ++ b₁ ++ b₀) = b₃ := by
  simp (disch := omega) only [field_low, field_high, field_all, Nat.reduceSub, and_self]

/-- Slot `t` of a keycode word, the lower index in the less significant byte (20_memory R62). -/
theorem keyWord_byte (s : State) (q : Nat) {t : Nat} (ht : t < 4) :
    (keyWord s q).extractLsb' (8 * t) 8 = keySlot s (4 * q + t) := by
  obtain ⟨h0, h1, h2, h3⟩ :=
    bytes_fields (keySlot s (4 * q + 3)) (keySlot s (4 * q + 2)) (keySlot s (4 * q + 1)) (keySlot s (4 * q))
  match t, ht with
  | 0, _ => exact h0
  | 1, _ => exact h1
  | 2, _ => exact h2
  | 3, _ => exact h3

theorem ledWord_byte (s : State) {i k : Nat} (hi : i < s.cfg.nLed) (hk : k < 3) :
    (ledWord s i).extractLsb' (8 * k) 8 = ledByte s i k := by
  rw [ledWord_within s hi]
  obtain ⟨h0, h1, h2, -⟩ := bytes_fields 0#8 (ledByte s i 2) (ledByte s i 1) (ledByte s i 0)
  match k, hk with
  | 0, _ => exact h0
  | 1, _ => exact h1
  | 2, _ => exact h2

theorem ledWord_top (s : State) {i : Nat} (hi : i < s.cfg.nLed) : (ledWord s i).extractLsb' 24 8 = 0 := by
  obtain ⟨-, -, -, h3⟩ := bytes_fields 0#8 (ledByte s i 2) (ledByte s i 1) (ledByte s i 0)
  rw [ledWord_within s hi]
  exact h3

/-! ### The statements of the read port -/

/-- Settles O53: each address reads its word, and each word has the fields of the map. -/
theorem readPortMap : Obligations.ReadPortMap := by
  unfold Obligations.ReadPortMap
  intro s
  rw [regRead_status, regRead_kstate, regRead_diag, regRead_diagCons, regRead_lookup, regRead_button,
    regRead_reportCons]
  refine ⟨statusWord_fields s, kstateWord_fields s, halves_fields s.diag.conflict s.diag.ovf,
    halves_fields 0#16 s.diag.cons, lookupWord_fields s, buttonWord_fields s, halves_fields 0#16 s.report.cons,
    regRead_x s, regRead_y s, ?keys, ?leds⟩
  case keys =>
    intro q t hq ht
    rw [regRead_keyAddress s hq, keyWord_byte s q ht, keySlot]
  case leds =>
    intro i hi hi'
    rw [regRead_ledAddress s hi']
    exact ⟨fun k hk => ledWord_byte s hi hk, ledWord_top s hi⟩

/-- Settles O54: the holes of the map, and the LED words from `N_LED` on. -/
theorem unmappedReadsAreZero : Obligations.UnmappedReadsAreZero := by
  unfold Obligations.UnmappedReadsAreZero
  intro s a h
  by_cases hled : 0x100 ≤ a.toNat
  · rw [regRead_led s hled, ledWord_beyond s (by omega)]
  · exact regRead_hole s (by omega)

/-! ### Transmission (20_memory R73) -/

/-- The bits sent are a function of the configuration and the buffer alone. -/
theorem wireBits_congr {s t : State} (hc : t.cfg = s.cfg) (hl : t.ledbuf = s.ledbuf) : wireBits t = wireBits s := by
  simp only [wireBits, hc, ledByte_congr hc hl]

theorem wireBits_transmit (s : State) : wireBits (transmit s) = wireBits s :=
  wireBits_congr (by simp [transmit_eq]) (by simp [transmit_eq])

/-- Settles O21: the first transmission leaves the bits to send as they were, and no flag records
that they were sent. -/
theorem secondLshowSendsSameBits : Obligations.SecondLshowSendsSameBits := by
  unfold Obligations.SecondLshowSendsSameBits
  intro s
  refine ⟨transmit s, transmit (transmit s), (wireBits s).flatMap bitCell ++ [latch], rfl, rfl, transmit_wire s, ?_⟩
  rw [transmit_wire (transmit s), wireBits_transmit]

end Sys2Proof.Machine

-- Proofs of the encoding family (30_encoding): decoder and encoder are inverse to each other, and what is rejected.

namespace Sys2Proof.Machine

open Sys2Proof.Laws

/-! ### The check of the must-be-zero bits -/

theorem ifZero_eq_ok_iff {b : Bool} {i j : Instr} : ifZero b i = .ok j ↔ b = true ∧ i = j := by
  cases b <;> simp [ifZero]

theorem ifZero_error_iff {b : Bool} {i : Instr} : (∃ e, ifZero b i = .error e) ↔ b = false := by
  cases b <;> simp [ifZero]

theorem ifZero_isOk (b : Bool) (i : Instr) : (ifZero b i).isOk = b := by cases b <;> rfl

/-! ### The command decoder, opcode by opcode (30_encoding R83 to R87) -/

theorem opcode_cases (w : CmdWord) : (opcode w = 0 ∨ 0x06#8 ≤ opcode w) ∨ opcode w = 1 ∨ opcode w = 2 ∨
    opcode w = 3 ∨ opcode w = 4 ∨ opcode w = 5 := by
  bv_omega

section
variable {w : CmdWord}

theorem decodeCmd_reserved (h : opcode w = 0 ∨ 0x06#8 ≤ opcode w) : decodeCmd w = .error .reservedOpcode := by
  have hne : opcode w ≠ 1 ∧ opcode w ≠ 2 ∧ opcode w ≠ 3 ∧ opcode w ≠ 4 ∧ opcode w ≠ 5 := by bv_omega
  obtain ⟨h1, h2, h3, h4, h5⟩ := hne
  simp only [decodeCmd, if_neg h1, if_neg h2, if_neg h3, if_neg h4, if_neg h5]

theorem decodeCmd_lset (h : opcode w = 1) : decodeCmd w =
    .ok (.lset (bodyTop w) (w.extractLsb' 16 8) (w.extractLsb' 8 8) (w.extractLsb' 0 8)) := by
  simp [decodeCmd, h]

theorem decodeCmd_lshow (h : opcode w = 2) : decodeCmd w = ifZero (w.extractLsb' 0 32 == 0) .lshow := by
  simp [decodeCmd, h]

theorem decodeCmd_kframe (h : opcode w = 3) : decodeCmd w = ifZero (w.extractLsb' 0 32 == 0) .kframe := by
  simp [decodeCmd, h]

theorem decodeCmd_frame (h : opcode w = 4) : decodeCmd w = ifZero (w.extractLsb' 0 32 == 0) .frame := by
  simp [decodeCmd, h]

theorem decodeCmd_klook (h : opcode w = 5) : decodeCmd w =
    ifZero (w.extractLsb' 17 7 == 0 && w.extractLsb' 2 14 == 0)
      (.klook (selOf (w.getLsbD 16)) (bodyTop w) (w.extractLsb' 0 2)) := by
  simp [decodeCmd, h]

/-! ### The encoder on the fields that the decoder reads -/

/-- A command without operands: its word is its opcode and a zero body. -/
theorem encode_of_bare {op : Byte} {i j : Instr} (hop : opcode w = op) (henc : encode i = .cmd (op ++ 0#32))
    (hwf : i.wf = true) (h : ifZero (w.extractLsb' 0 32 == 0) i = .ok j) : encode j = .cmd w ∧ j.wf = true := by
  rw [ifZero_eq_ok_iff, beq_iff_eq] at h
  obtain ⟨hz, rfl⟩ := h
  have hw := cmd_body_join w
  rw [hop, hz] at hw
  exact ⟨henc.trans (congrArg Word.cmd hw), hwf⟩

theorem encode_lset_fields (h : opcode w = 1) :
    encode (.lset (bodyTop w) (w.extractLsb' 16 8) (w.extractLsb' 8 8) (w.extractLsb' 0 8)) = .cmd w := by
  have hw := cmd_join w
  rw [h] at hw
  exact congrArg Word.cmd hw

theorem encode_klook_fields (h : opcode w = 5) (hhi : w.extractLsb' 17 7 = 0) (hlo : w.extractLsb' 2 14 = 0) :
    encode (.klook (selOf (w.getLsbD 16)) (bodyTop w) (w.extractLsb' 0 2)) = .cmd w := by
  have hw := klook_join w
  rw [h, hhi, hlo, ← sel_selOf] at hw
  exact congrArg Word.cmd hw

/-- No bit of a legal command word is ignored. -/
theorem encode_of_decodeCmd {i : Instr} (h : decodeCmd w = .ok i) : encode i = .cmd w ∧ i.wf = true := by
  rcases opcode_cases w with hop | hop | hop | hop | hop | hop
  · rw [decodeCmd_reserved hop] at h
    cases h
  · rw [decodeCmd_lset hop] at h
    cases h
    exact ⟨encode_lset_fields hop, rfl⟩
  · rw [decodeCmd_lshow hop] at h
    exact encode_of_bare hop rfl rfl h
  · rw [decodeCmd_kframe hop] at h
    exact encode_of_bare hop rfl rfl h
  · rw [decodeCmd_frame hop] at h
    exact encode_of_bare hop rfl rfl h
  · rw [decodeCmd_klook hop, ifZero_eq_ok_iff, Bool.and_eq_true, beq_iff_eq, beq_iff_eq] at h
    obtain ⟨⟨hhi, hlo⟩, rfl⟩ := h
    exact ⟨encode_klook_fields hop hhi hlo, rfl⟩

/-- The decoder rejects the reserved opcodes and the words with a must-be-zero bit set (30_encoding R87). -/
theorem decodeCmd_error_iff : (∃ e, decodeCmd w = .error e) ↔ Spec.IllegalCmd w := by
  rcases opcode_cases w with hop | hop | hop | hop | hop | hop
  · rw [decodeCmd_reserved hop]
    exact iff_of_true ⟨_, rfl⟩ (or_assoc.1 (.inl hop))
  · simp [decodeCmd_lset hop, Spec.IllegalCmd, hop]
  · simp [decodeCmd_lshow hop, ifZero_error_iff, Spec.IllegalCmd, hop]
  · simp [decodeCmd_kframe hop, ifZero_error_iff, Spec.IllegalCmd, hop]
  · simp [decodeCmd_frame hop, ifZero_error_iff, Spec.IllegalCmd, hop]
  · simp [decodeCmd_klook hop, ifZero_error_iff, Spec.IllegalCmd, hop, imp_iff_not_or]

end

/-! ### The mapping decoder, kind by kind (30_encoding R91 to R96) -/

theorem ofCode_eq_none_iff : ∀ b : BitVec 4, Kind.ofCode b = none ↔ 8#4 ≤ b ∧ b ≠ 0xF := by decide

section
variable {m : MapWord} {k : Kind}

theorem kindBits_of_kindOf (hk : kindOf m = some k) : kindBits m = k.code := (Kind_code_ofCode hk).symm

theorem mapWord_bare (hk : kindOf m = some k) (hz : argBits m = 0) : mapWord k 0 = m := by
  rw [← hz, mapWord_kindOf hk]

theorem mapWord_byte (hk : kindOf m = some k) (hz : m.extractLsb' 8 8 = 0#8) : mapWord k (0#8 ++ argByte m) = m :=
  calc mapWord k (0#8 ++ argByte m) = mapWord k (m.extractLsb' 8 8 ++ argByte m) := by rw [hz]
    _ = m := by rw [arg_join_byte, mapWord_kindOf hk]

theorem mapWord_two (hk : kindOf m = some k) (hz : m.extractLsb' 2 14 = 0#14) : mapWord k (0#14 ++ argTwo m) = m :=
  calc mapWord k (0#14 ++ argTwo m) = mapWord k (m.extractLsb' 2 14 ++ argTwo m) := by rw [hz]
    _ = m := by rw [arg_join_two, mapWord_kindOf hk]

theorem decodeMap_mouse (hk : kindOf m = some .mouse) : decodeMap m =
    if argTwo m = 3 then .error .reservedButton else ifZero (m.extractLsb' 2 14 == 0) (.mouse (argTwo m)) := by
  simp only [decodeMap, hk]

/-- No bit of a legal mapping word is ignored. -/
theorem encode_of_decodeMap {i : Instr} (h : decodeMap m = .ok i) : encode i = .map m ∧ i.wf = true := by
  cases hk : kindOf m with
  | none => simp [decodeMap, hk] at h
  | some k =>
    cases k with
    | noop | joybtn | trns =>
      simp only [decodeMap, hk, ifZero_eq_ok_iff, beq_iff_eq] at h
      obtain ⟨hz, rfl⟩ := h
      exact ⟨congrArg Word.map (mapWord_bare hk hz), rfl⟩
    | key =>
      simp only [decodeMap, hk, ifZero_eq_ok_iff, beq_iff_eq] at h
      obtain ⟨hz, rfl⟩ := h
      exact ⟨congrArg Word.map (mapWord_byte hk hz), rfl⟩
    | cons | mode =>
      simp only [decodeMap, hk] at h
      cases h
      exact ⟨congrArg Word.map (mapWord_kindOf hk), rfl⟩
    | mo | st =>
      simp only [decodeMap, hk, ifZero_eq_ok_iff, beq_iff_eq] at h
      obtain ⟨hz, rfl⟩ := h
      exact ⟨congrArg Word.map (mapWord_two hk hz), rfl⟩
    | mouse =>
      rw [decodeMap_mouse hk] at h
      split at h
      · cases h
      · next hb =>
        rw [ifZero_eq_ok_iff, beq_iff_eq] at h
        obtain ⟨hz, rfl⟩ := h
        exact ⟨congrArg Word.map (mapWord_two hk hz), bne_iff_ne.2 hb⟩

/-- The decoder rejects the reserved kinds, the words with a must-be-zero bit set and `MOUSE(3)` (30_encoding R96). -/
theorem mapLegal_eq_false_iff : mapLegal m = false ↔ Spec.ReservedMap m := by
  cases hk : kindOf m with
  | none =>
    have hcode := (ofCode_eq_none_iff (kindBits m)).1 hk
    refine iff_of_true ?_ (.inl hcode)
    simp only [mapLegal, decodeMap, hk]
    rfl
  | some k =>
    have hb := kindBits_of_kindOf hk
    cases k with
    | mouse =>
      rw [mapLegal, decodeMap_mouse hk]
      split
      · next h3 => exact iff_of_true rfl (.inr (.inr (.inr (.inr ⟨hb, h3⟩))))
      · next h3 =>
        have hb3 : argTwo m ≠ 3#2 := h3
        simp [ifZero_isOk, Spec.ReservedMap, hb, Kind.code, hb3]
    | noop | joybtn | trns | key | mo | st =>
      simp [mapLegal, decodeMap, hk, ifZero_isOk, Spec.ReservedMap, hb, Kind.code]
    | cons | mode =>
      simp [mapLegal, decodeMap, hk, Spec.ReservedMap, hb, Kind.code, Except.isOk, Except.toBool]

end

/-! ### What a rejected word does -/

theorem acceptCommand_of_error {w : CmdWord} {e : DecodeError} (hd : decodeCmd w = .error e) (s : State) :
    acceptCommand w s = .next (raiseFatal .illegalCmd (illegalInfo w) s) := by
  simp [acceptCommand, hd]

theorem exec_klook_out {s : State} {sel : Table} {ctl : Byte} (layer : LayerIx) (h : s.cfg.rowSize sel ≤ ctl.toNat) :
    exec (.klook sel ctl layer) s = .next (raiseFatal .illegalCmd (0x05#8 ++ ctl) s) := by
  have hout : ¬ lookupIndexOk s.cfg sel ctl = true := by simpa [lookupIndexOk] using h
  exact if_neg hout

/-- The information word that an index out of range records (41_keymap_lookup R147) is that of R87. -/
theorem illegalInfo_klook {w : CmdWord} {sel : Table} {ctl : Byte} {layer : LayerIx}
    (hd : decodeCmd w = .ok (.klook sel ctl layer)) : illegalInfo w = 0x05#8 ++ ctl := by
  obtain ⟨hop, htop, -⟩ := klook_fields 0x05#8 ctl sel.sel layer
  obtain ⟨henc, -⟩ := encode_of_decodeCmd hd
  cases henc
  rw [illegalInfo, hop, htop]

theorem not_wf_of_reserved {c : Config} {m : MapWord} (hm : Spec.ReservedMap m) (hin : m ∈ c.words) :
    c.wf = false := by
  refine Bool.eq_false_of_not_eq_true fun hw => ?_
  obtain ⟨hlegal, -⟩ := Config.wf_iff.1 hw
  have hl : mapLegal m = true := Config.wordsLegal_iff.1 hlegal m hin
  exact Bool.noConfusion (hl.symm.trans (mapLegal_eq_false_iff.2 hm))

/-! ### The statements of the encoding -/

/-- Settles O2, row by row of the opcode table. -/
theorem decodeOfEncodeIsIdentity : Obligations.DecodeOfEncodeIsIdentity := by
  unfold Obligations.DecodeOfEncodeIsIdentity
  intro i
  cases i with
  | lset idx r g b => exact DecodesBack.lset idx r g b
  | lshow => exact DecodesBack.lshow
  | kframe => exact DecodesBack.kframe
  | frame => exact DecodesBack.frame
  | klook sel ctl layer => exact DecodesBack.klook sel ctl layer
  | noop => exact DecodesBack.noop
  | key kc => exact DecodesBack.key kc
  | cons code => exact DecodesBack.cons code
  | mouse b => exact DecodesBack.mouse b
  | joybtn => exact DecodesBack.joybtn
  | mo n => exact DecodesBack.mo n
  | st n => exact DecodesBack.st n
  | mode v => exact DecodesBack.mode v
  | trns => exact DecodesBack.trns

/-- Settles O3, for either kind of word. -/
theorem encodeOfDecodeIsIdentity : Obligations.EncodeOfDecodeIsIdentity := by
  unfold Obligations.EncodeOfDecodeIsIdentity
  intro x i h
  cases x with
  | cmd w => exact encode_of_decodeCmd h
  | map m => exact encode_of_decodeMap h

/-- Settles O4: a rejected word halts at its acceptance, a `KLOOK` out of range in its execution, with the same
information word. -/
theorem illegalCommandWordHalts : Obligations.IllegalCommandWordHalts := by
  unfold Obligations.IllegalCommandWordHalts
  refine ⟨fun w => decodeCmd_error_iff, fun s w p rest hill hw hr hin => ?illegal,
    fun s w p rest sel ctl layer hd hout hw hr hin => ?klook⟩
  case illegal =>
    obtain ⟨e, hd⟩ := decodeCmd_error_iff.2 hill
    rw [step_command hw hr hin, acceptCommand_of_error hd]
    rfl
  case klook =>
    calc step s = exec (.klook sel ctl layer) ((s.setPins p).setInbox rest) :=
          (step_command hw hr hin).trans (acceptCommand_of_decode hd _)
      _ = .next (raiseFatal .illegalCmd (illegalInfo w) ((s.setPins p).setInbox rest)) := by
          rw [illegalInfo_klook hd]
          exact exec_klook_out layer hout

/-- Settles O5: one reserved word in a table breaks the first clause of `WF_CONFIG`, so every step is refused
(log 9). -/
theorem reservedMappingWordsRefused : Obligations.ReservedMappingWordsRefused := by
  unfold Obligations.ReservedMappingWordsRefused
  exact ⟨fun m => mapLegal_eq_false_iff, fun s m hm hin => step_of_not_wf (not_wf_of_reserved hm hin)⟩

/-- Settles O1: each decoding is a computation on a fixed word. -/
theorem writtenOutWordsDecode : Obligations.WrittenOutWordsDecode := by
  unfold Obligations.WrittenOutWordsDecode
  exact ⟨rfl, rfl, rfl, rfl, rfl, rfl, rfl, rfl, rfl⟩

end Sys2Proof.Machine

-- Proofs of the LED family (40_led_commands): the colour pipeline, `LSET`, and the transmission of `LSHOW`.

namespace Sys2Proof.Machine

/-! ### Bit reversal (40_led_commands R116) -/

theorem getLsbD_bitrev8 (v : Byte) {j : Nat} (hj : j < 8) : (bitrev8 v).getLsbD j = v.getLsbD (7 - j) :=
  bitrev8_bit v ⟨j, hj⟩

theorem bitrev8_involutive : Function.Involutive bitrev8 := fun v => by
  refine BitVec.eq_of_getLsbD_eq fun j hj => ?_
  calc (bitrev8 (bitrev8 v)).getLsbD j = (bitrev8 v).getLsbD (7 - j) := getLsbD_bitrev8 _ hj
    _ = v.getLsbD (7 - (7 - j)) := getLsbD_bitrev8 _ (by omega)
    _ = v.getLsbD j := by rw [Nat.sub_sub_self (by omega)]

theorem bitrev8_eq_ff {v : Byte} (h : bitrev8 v = 0xFF) : v = 0xFF := bitrev8_involutive.injective h

/-- Settles O18. -/
theorem bitReversalIsInvolution : Obligations.BitReversalIsInvolution := by
  unfold Obligations.BitReversalIsInvolution
  exact ⟨fun v _ hj => getLsbD_bitrev8 v hj, bitrev8_involutive, bitrev8_involutive.bijective,
    rfl, rfl, rfl, rfl, rfl, rfl, rfl⟩

/-! ### Power scaling (40_led_commands R112) -/

section
variable (cfg : Config)

theorem scale_zero : scale cfg 0 = 0 := by simp [scale]

theorem scale_white : scale cfg 255 = cfg.budget :=
  BitVec.eq_of_toNat_eq ((scale_toNat cfg 255).trans (Nat.mul_div_cancel_left _ (by decide)))

theorem scale_le_of_le {c d : Byte} (h : c.toNat ≤ d.toNat) : (scale cfg c).toNat ≤ (scale cfg d).toNat := by
  rw [scale_toNat, scale_toNat]
  exact Nat.div_le_div_right (Nat.mul_le_mul_right _ h)

/-- No channel exceeds the budget, since white does not. -/
theorem scale_le_budget (c : Byte) : (scale cfg c).toNat ≤ cfg.budget.toNat := by
  have hwhite : (scale cfg c).toNat ≤ (scale cfg 255).toNat := scale_le_of_le cfg (Nat.le_pred_of_lt c.isLt)
  rwa [scale_white] at hwhite

end

/-- Settles O16. -/
theorem powerScalingIsExactFloor : Obligations.PowerScalingIsExactFloor := by
  unfold Obligations.PowerScalingIsExactFloor
  intro cfg c d
  have hproduct : c.toNat * cfg.budget.toNat ≤ 255 * 255 :=
    Nat.mul_le_mul (Nat.le_pred_of_lt c.isLt) (Nat.le_pred_of_lt cfg.budget.isLt)
  exact ⟨hproduct, scale_toNat cfg c, scale_le_budget cfg c, scale_zero cfg, scale_white cfg, scale_le_of_le cfg⟩

/-! ### White (40_led_commands R115) -/

/-- A grey is corrected to the same byte at each place, whatever the wire order. -/
theorem correct_grey (cfg : Config) (c : Byte) (k : Nat) : correct cfg ⟨c, c, c⟩ k = chan cfg c := by
  have hchannel : ∀ w, channelOf ⟨c, c, c⟩ w = c := fun w => by cases w <;> rfl
  rw [correct, hchannel]

theorem correct_white (cfg : Config) (k : Nat) :
    correct cfg ⟨255, 255, 255⟩ k = bitrev8 (cfg.gammaAt cfg.budget) := by
  rw [correct_grey, chan, scale_white]

/-- Settles O17: only `0xFF` is reversed to `0xFF`, and clause 3 of `WF_CONFIG` keeps it out of `GAMMA[BUDGET]`. -/
theorem whiteIsClampedToBudget : Obligations.WhiteIsClampedToBudget := by
  unfold Obligations.WhiteIsClampedToBudget
  intro cfg k
  refine ⟨correct_white cfg k, correct_grey cfg cfg.budget k, fun hw hff => ?_, fun _ => bitrev8_eq_ff⟩
  obtain ⟨-, -, hwhite, -⟩ := Config.wf_iff.1 hw
  rw [correct_white] at hff
  exact Config.whiteBelowMax_iff.1 hwhite (bitrev8_eq_ff hff)

/-! ### `LSET` (40_led_commands R110, R111) -/

section
variable {s : State} {idx : Byte} (r g b : Byte)

theorem exec_lset_within (h : idx.toNat < s.cfg.nLed) :
    exec (.lset idx r g b) s = .next (storeColour idx.toNat ⟨r, g, b⟩ s) := if_pos (decide_eq_true h)

theorem exec_lset_out (h : s.cfg.nLed ≤ idx.toNat) :
    exec (.lset idx r g b) s = .next (raiseFatal .ledIndex (idx.setWidth 16) s) :=
  if_neg (by simpa [ledIndexOk] using h)

end

/-- Settles O15: `storeColour` is one update of the buffer, which writes the entry and no other
(`ledByte_storeColour`). -/
theorem lsetStoresCorrectedColour : Obligations.LsetStoresCorrectedColour := by
  unfold Obligations.LsetStoresCorrectedColour
  intro s idx r g b
  constructor
  · intro hin
    obtain ⟨m, hm⟩ := storeColour_eq idx.toNat ⟨r, g, b⟩ s
    refine ⟨m, (exec_lset_within r g b hin).trans (congrArg _ hm), fun i k hk => ?_⟩
    show ledByte (s.setLedbuf m) i k = _
    rw [← hm, ledByte_storeColour _ _ _ _ hk]
    rfl
  · intro hout
    have hinfo : idx.setWidth 16 = 0#8 ++ idx := BitVec.setWidth_eq_append (by decide)
    rw [exec_lset_out r g b hout, hinfo]
    rfl

/-! ### `LSHOW` (40_led_commands R120 to R124) -/

theorem exec_lshow (s : State) : exec .lshow s = .next (transmit s) := rfl

/-- Settles O19. -/
theorem lshowTransmitsBuffer : Obligations.LshowTransmitsBuffer := by
  unfold Obligations.LshowTransmitsBuffer
  intro s
  rw [exec_lshow, transmit_eq, wireBits_cells]
  rfl

/-- Three bytes of eight bits for each LED. -/
theorem bufferBits_length (s : State) : (Spec.bufferBits s).length = 24 * s.cfg.nLed := by
  simp [Spec.bufferBits, List.length_flatMap, Nat.mul_comm]

/-- Settles O20: the earlier segments, the cells and the latch are each a sequence of symbols. -/
theorem lshowSymbolView : Obligations.LshowSymbolView := by
  unfold Obligations.LshowSymbolView
  refine ⟨rfl, rfl, symbolView_latch, fun s v hv => ⟨bufferBits_length s, transmit s, exec_lshow s, ?_⟩⟩
  rw [symbolView_transmit hv, wireBits_eq]

end Sys2Proof.Machine

-- Proofs of the keymap_lookup family (41_keymap_lookup): the collapse walk, KLOOK and the accumulator.

namespace Sys2Proof.Machine

/-! ### The collapse walk (41_keymap_lookup R140 to R143) -/

section
variable (cfg : Config) (t : Table) (ix : Nat)

/-- R143, second case: the walk stops at layer 0 and at any word that is not transparent. -/
theorem collapse_stops : ∀ {l : Nat}, l = 0 ∨ kindOf (cfg.word t l ix) ≠ some .trns →
    collapse cfg t ix l = (cfg.word t l ix, l)
  | 0, _ => rfl
  | l + 1, h => collapse_opaque cfg t ix (h.resolve_left l.succ_ne_zero)

/-- The walk ends at the nearest layer at or below the start whose word is not transparent, or at layer 0. -/
theorem collapse_nearest (l0 : Nat) : ∃ l ≤ l0, collapse cfg t ix l0 = (cfg.word t l ix, l) ∧
    (∀ l', l < l' → l' ≤ l0 → kindOf (cfg.word t l' ix) = some .trns) ∧
    (l = 0 ∨ kindOf (cfg.word t l ix) ≠ some .trns) := by
  induction l0 with
  | zero => exact ⟨0, le_rfl, rfl, by omega, .inl rfl⟩
  | succ l0 ih =>
    by_cases htop : kindOf (cfg.word t (l0 + 1) ix) = some .trns
    · obtain ⟨l, hl, hfound, hbetween, hstop⟩ := ih
      refine ⟨l, by omega, (collapse_transparent cfg t ix htop).trans hfound, fun l' hlow hhigh => ?_, hstop⟩
      obtain hbelow | rfl := Nat.le_succ_iff.1 hhigh
      · exact hbetween l' hlow hbelow
      · exact htop
    · exact ⟨l0 + 1, le_rfl, collapse_opaque cfg t ix htop, by omega, .inr htop⟩

end

/-- Settles O22. -/
theorem collapseFallsBackToNearest : Obligations.CollapseFallsBackToNearest := by
  unfold Obligations.CollapseFallsBackToNearest
  intro cfg t ix l0
  refine ⟨fun hpos htop => ?_, collapse_stops cfg t ix, collapse_nearest cfg t ix l0⟩
  obtain ⟨l, rfl⟩ := Nat.exists_eq_add_one.2 hpos
  exact collapse_transparent cfg t ix htop

/-- Settles O23: the nearest word is not transparent unless it stands at layer 0, where `INV_L0` says that it is not. -/
theorem layer0InvariantStopsTransparency : Obligations.Layer0InvariantStopsTransparency := by
  unfold Obligations.Layer0InvariantStopsTransparency
  intro cfg ix l0 hinv hix
  obtain ⟨l, -, hfound, -, hbottom | hopaque⟩ := collapse_nearest cfg .layerMap ix l0
  · rw [hfound, hbottom]
    exact Config.invL0_iff.1 hinv ix hix
  · rwa [hfound]

/-! ### `KLOOK` (41_keymap_lookup R146, R147) -/

theorem exec_klook_within {s : State} {sel : Table} {ctl : Byte} (layer : LayerIx)
    (h : ctl.toNat < s.cfg.rowSize sel) : exec (.klook sel ctl layer) s =
      .next (recordLookup s (collapse s.cfg sel ctl.toNat layer.toNat)) := if_pos (decide_eq_true h)

/-- A lookup that starts at one of the four layers ends at one of them. -/
theorem collapse_layer_lt (cfg : Config) (t : Table) (ix : Nat) (layer : LayerIx) :
    (collapse cfg t ix layer.toNat).2 < 4 :=
  (collapse_word cfg t ix layer.toNat).1.trans_lt layer.isLt

/-- Settles O24: the bound of each table is its row size. -/
theorem klookRecordsLookup : Obligations.KlookRecordsLookup := by
  unfold Obligations.KlookRecordsLookup
  intro s sel ctl layer
  exact ⟨fun hin => ⟨exec_klook_within layer hin, collapse_layer_lt s.cfg sel ctl.toNat layer⟩,
    fun hout => exec_klook_out layer hout⟩

/-! ### The accumulator's words, presented on their own (41_keymap_lookup R151 to R156) -/

section
variable (s : State)

theorem exec_noop : exec .noop s = .next s := rfl
theorem exec_trns : exec .trns s = .next s := rfl
theorem exec_key (kc : Byte) : exec (.key kc) s = .next (addKey kc s) := rfl
theorem exec_cons (code : BitVec 16) : exec (.cons code) s = .next (addCons code s) := rfl
theorem exec_joybtn : exec .joybtn s = .next (addJoyBtn s) := rfl
theorem exec_mouse {b : BitVec 2} (hb : b ≠ 3) : exec (.mouse b) s = .next (addMouse b s) := if_neg hb
theorem exec_mouse_reserved : exec (.mouse 3) s = .refused .reservedMapping := rfl

end

theorem emit_kcOverflow (d : DiagRegs) (info : BitVec 16) :
    d.emit .kcOverflow info = { d with ovf := d.ovf + 1, log := d.log ++ [⟨.kcOverflow, info⟩] } := rfl

theorem emit_consConflict (d : DiagRegs) (info : BitVec 16) :
    d.emit .consConflict info = { d with cons := d.cons + 1, log := d.log ++ [⟨.consConflict, info⟩] } := rfl

/-- Settles O25: the placeholder, room for the keycode, and the full list exclude each other (`addKey_cases`). -/
theorem keyIsAppendedUpToCapacity : Obligations.KeyIsAppendedUpToCapacity := by
  unfold Obligations.KeyIsAppendedUpToCapacity
  intro s kc
  have hinfo : kc.setWidth 16 = 0#8 ++ kc := BitVec.setWidth_eq_append (by decide)
  rw [exec_key]
  obtain ⟨hzero, hadd⟩ | ⟨hkey, hroom, hadd⟩ | ⟨hkey, hfull, hadd⟩ := addKey_cases kc s
  · rw [hadd]
    exact ⟨fun _ => rfl, fun h => absurd hzero h, fun h => absurd hzero h⟩
  · rw [hadd]
    exact ⟨fun h => absurd h hkey, fun _ _ => rfl, fun _ h => absurd hroom h.not_gt⟩
  · rw [hadd, emit_kcOverflow, hinfo]
    exact ⟨fun h => absurd h hkey, fun _ h => absurd hfull h.not_ge, fun _ _ => rfl⟩

/-- Settles O26: whether a code is recorded decides, not its value (`addCons_cases`). -/
theorem firstConsumerCodeWins : Obligations.FirstConsumerCodeWins := by
  unfold Obligations.FirstConsumerCodeWins
  intro s code
  rw [exec_cons]
  obtain ⟨hfree, hadd⟩ | ⟨htaken, hadd⟩ := addCons_cases code s
  · rw [hadd]
    exact ⟨fun _ => rfl, fun h => absurd hfree h⟩
  · rw [hadd, emit_consConflict]
    exact ⟨fun h => absurd h htaken, fun _ => rfl⟩

/-- Settles O27: the flag `1 << b` of a legal button is 1, 2 or 4. -/
theorem buttonFlagsAreSet : Obligations.ButtonFlagsAreSet := by
  unfold Obligations.ButtonFlagsAreSet
  intro s
  exact ⟨exec_mouse s (by decide), exec_mouse s (by decide), exec_mouse s (by decide), exec_mouse_reserved s,
    exec_joybtn s⟩

/-- Settles O28. -/
theorem inertMappingsDoNothing : Obligations.InertMappingsDoNothing := by
  unfold Obligations.InertMappingsDoNothing
  exact fun s => ⟨exec_noop s, exec_trns s⟩

/-! ### `Add`, kind by kind (41_keymap_lookup R150, R157) -/

section
variable {m : MapWord} (s : State)

theorem add_noop (hk : kindOf m = some .noop) : add s m = s := by simp only [add, hk]
theorem add_key (hk : kindOf m = some .key) : add s m = addKey (argByte m) s := by simp only [add, hk]
theorem add_cons (hk : kindOf m = some .cons) : add s m = addCons (argBits m) s := by simp only [add, hk]
theorem add_mouse (hk : kindOf m = some .mouse) : add s m = addMouse (argTwo m) s := by simp only [add, hk]
theorem add_joybtn (hk : kindOf m = some .joybtn) : add s m = addJoyBtn s := by simp only [add, hk]
theorem add_trns (hk : kindOf m = some .trns) : add s m = s := by simp only [add, hk]

/-- The layer changes and the mode toggle are pass 1's, not the accumulator's. -/
theorem add_stateAffecting {k : Kind} (hk : kindOf m = some k) (h : k.stateAffecting = true) : add s m = s := by
  cases k with
  | mo | st | mode => simp only [add, hk]
  | noop | key | cons | mouse | joybtn | trns => cases h

end

/-- Settles O29: a legal word decodes to the instruction of its kind, and `Add` answers by kind. -/
theorem addDispatchesOnKind : Obligations.AddDispatchesOnKind := by
  unfold Obligations.AddDispatchesOnKind
  intro s m i hd
  obtain ⟨hk, rfl⟩ | ⟨hk, rfl⟩ | ⟨hk, rfl⟩ | ⟨hk, rfl, hb⟩ | ⟨hk, rfl⟩ | ⟨hk, rfl⟩ | ⟨hk, rfl⟩ | ⟨hk, rfl⟩ | ⟨hk, rfl⟩ :=
    decodeMap_kind hd
  · exact ⟨by simp, fun _ _ _ => by rw [exec_noop, add_noop s hk]⟩
  · exact ⟨by simp, fun _ _ _ => by rw [exec_key, add_key s hk]⟩
  · exact ⟨by simp, fun _ _ _ => by rw [exec_cons, add_cons s hk]⟩
  · exact ⟨by simp, fun _ _ _ => by rw [exec_mouse s hb, add_mouse s hk]⟩
  · exact ⟨by simp, fun _ _ _ => by rw [exec_joybtn, add_joybtn s hk]⟩
  · exact ⟨fun _ => add_stateAffecting s hk rfl, fun hmo _ _ => absurd rfl (hmo _)⟩
  · exact ⟨fun _ => add_stateAffecting s hk rfl, fun _ hst _ => absurd rfl (hst _)⟩
  · exact ⟨fun _ => add_stateAffecting s hk rfl, fun _ _ hmode => absurd rfl (hmode _)⟩
  · exact ⟨by simp, fun _ _ _ => by rw [exec_trns, add_trns s hk]⟩

end Sys2Proof.Machine

-- Proofs of the keymap_frame family (42_keymap_frame): the layer and the mode, the diagnostics, the report, and what a
-- frame neither writes nor reads.

namespace Sys2Proof.Machine

/-! ### `MO`, `ST` and `MODE`, presented on their own (42_keymap_frame R181 to R183) -/

section
variable (s : State)

theorem exec_mo (n : LayerIx) : exec (.mo n) s = .next (applyMo n s) := rfl
theorem exec_st (n : LayerIx) : exec (.st n) s = .next (applySt n s) := rfl
theorem exec_mode (v : BitVec 16) : exec (.mode v) s = (applyMode v s).done := rfl
theorem applyMode_zero : applyMode 0 s = .go (toggleWasd s) := rfl
theorem applyMode_variant {v : BitVec 16} (hv : v ≠ 0) : applyMode v s = .halt (raiseFatal .noHandler v s) := if_neg hv

end

/-- Settles O30. -/
theorem layerChangesApply : Obligations.LayerChangesApply := by
  unfold Obligations.LayerChangesApply
  exact fun s n => ⟨exec_mo s n, exec_st s n⟩

/-- Settles O31: variant 0 has the one handler. -/
theorem modeTogglesOrHalts : Obligations.ModeTogglesOrHalts := by
  unfold Obligations.ModeTogglesOrHalts
  intro s v
  rw [exec_mode]
  constructor
  · rintro rfl
    rw [applyMode_zero]
    rfl
  · intro hv
    rw [applyMode_variant s hv]
    rfl

/-! ### The encoder and the stick (42_keymap_frame R173 to R175) -/

section
variable {prevA a b : Bool}

theorem wheelStep_same (ha : a = prevA) : wheelStep prevA a b = 0 := if_pos ha
theorem wheelStep_up (ha : a ≠ prevA) (hb : b = a) : wheelStep prevA a b = 1 := by rw [wheelStep, if_neg ha, if_pos hb]
theorem wheelStep_down (ha : a ≠ prevA) (hb : b ≠ a) : wheelStep prevA a b = -1 := by
  rw [wheelStep, if_neg ha, if_neg hb]

end

/-- `RPT_WHEEL` holds the step in two's complement (42_keymap_frame R196). -/
theorem ofInt_wheelStep : ∀ prevA a b : Bool, BitVec.ofInt 8 (wheelStep prevA a b) =
    if a = prevA then 0x00 else if b = a then 0x01 else 0xFF := by decide

/-- Settles O41. -/
theorem rotaryDecode : Obligations.RotaryDecode := by
  unfold Obligations.RotaryDecode
  exact fun s => ⟨rfl, wheelStep_same, wheelStep_down, wheelStep_up⟩

theorem beyondPos_iff {c : Int} {dz : BitVec 15} : beyondPos c dz = true ↔ c > (dz.toNat : Int) := decide_eq_true_iff

theorem beyondNeg_iff {c : Int} {dz : BitVec 15} : beyondNeg c dz = true ↔ c < -(dz.toNat : Int) := decide_eq_true_iff

/-- A deadzone is unsigned, so no coordinate is beyond both of its thresholds. -/
theorem not_beyond_both (c : Int) (dz : BitVec 15) : ¬ (beyondPos c dz = true ∧ beyondNeg c dz = true) := by
  rw [beyondPos_iff, beyondNeg_iff]
  omega

/-- Settles O42: the difference of two 16-bit samples is within 65535 of zero. -/
theorem stickDirections : Obligations.StickDirections := by
  unfold Obligations.StickDirections
  intro s
  obtain ⟨hxlow, hxhigh⟩ := centreX_range s
  obtain ⟨hylow, hyhigh⟩ := centreY_range s
  exact ⟨rfl, rfl, hxlow, hxhigh, hylow, hyhigh, beyondPos_iff, beyondNeg_iff, beyondNeg_iff, beyondPos_iff,
    not_beyond_both _ _, fun ⟨hleft, hright⟩ => not_beyond_both _ _ ⟨hright, hleft⟩⟩

/-! ### The scan (42_keymap_frame R177) -/

theorem mem_scanOrder {cfg : Config} {c : Nat} : c ∈ scanOrder cfg ↔ c < cfg.nKeys + 2 := List.mem_range

theorem scanOrder_rising (cfg : Config) : (scanOrder cfg).Pairwise (· < ·) := List.pairwise_lt_range

theorem mem_actuated {s : State} {c : Nat} :
    c ∈ actuated s ↔ c ∈ scanOrder s.cfg ∧ s.pins.act.getLsbD c = true := List.mem_filter

theorem actuated_lt {s : State} {c : Nat} (h : c ∈ actuated s) : c < s.cfg.nKeys + 2 :=
  mem_scanOrder.1 (mem_actuated.1 h).1

theorem scanned_controls (s : State) : (scanned s).map Prod.fst = actuated s := by
  simp [scanned, Function.comp_def]

/-- Settles O55: `ROTA` and `ROTB` lie beyond the last scanned control, `SCR`. -/
theorem scanTakesActuatedControlsInOrder : Obligations.ScanTakesActuatedControlsInOrder := by
  unfold Obligations.ScanTakesActuatedControlsInOrder
  intro s
  have hmem : ∀ c, c ∈ scanOrder s.cfg ↔ c < s.cfg.nKeys ∨ c = joyIndex s.cfg ∨ c = scrIndex s.cfg := fun c => by
    simp only [mem_scanOrder, joyIndex, scrIndex]
    omega
  refine ⟨hmem, scanOrder_rising _, le_rfl, Nat.lt_succ_self _, fun c => mem_actuated,
    (scanOrder_rising _).filter _, fun h => ?_, fun h => ?_, scanned_controls s, _, rfl, fun hwasd => ?_⟩
  · exact absurd (actuated_lt h) (by simp [rotaIndex])
  · exact absurd (actuated_lt h) (by simp [rotbIndex])
  · simp [hwasd]

/-! ### The layer and the mode after a frame (42_keymap_frame R184) -/

theorem kframe_halt_of_not_handled {s : State} {v : BitVec 16} (hv : (Spec.modeRequests s).head? = some v)
    (h0 : v ≠ 0) : (kframe s).state.halt = ⟨true, 3, v⟩ := by
  rw [kframe_unhandled hv h0]
  rfl

/-- The layers differ after a frame only by a momentary change. -/
theorem newKeymap_cur_eq_sto {s : State} (h : ∀ n, (Spec.layerRequests s).head? ≠ some (.mo n)) :
    (Spec.newKeymap s).cur = (Spec.newKeymap s).sto := by
  simp only [Spec.newKeymap]
  cases hreq : (Spec.layerRequests s).head? with
  | none => rfl
  | some r =>
    cases r with
    | mo n => exact absurd hreq (h n)
    | st n => rfl

/-- Without a request the current layer is left at the stored one, where pass 1 put it (42_keymap_frame R176). -/
theorem newKeymap_layers_of_no_request {s : State} (h : Spec.layerRequests s = []) :
    (Spec.newKeymap s).cur = s.keymap.sto ∧ (Spec.newKeymap s).sto = s.keymap.sto := by
  simp [Spec.newKeymap, h]

/-- Settles O32. -/
theorem kframeStateMachine : Obligations.KframeStateMachine := by
  unfold Obligations.KframeStateMachine
  intro s hw
  refine ⟨_, execKframe_wf hw, kframe_keymap s, kframe_halt_of_handled, fun _ => kframe_halt_of_not_handled,
    fun hmo => ?_⟩
  rw [kframe_keymap]
  exact newKeymap_cur_eq_sto hmo

/-- Settles O33. -/
theorem momentaryLayerDecays : Obligations.MomentaryLayerDecays := by
  unfold Obligations.MomentaryLayerDecays
  intro s hw hnone
  refine ⟨_, execKframe_wf hw, ?_⟩
  rw [kframe_keymap]
  exact newKeymap_layers_of_no_request hnone

/-! ### The diagnostics of a frame (42_keymap_frame R178, R179; 60_exceptions R216) -/

/-- Of one class, the first request of the rest is dropped too if the slot is taken or the head takes it. -/
theorem laterRequests_cons {α β : Type} (request : α → Option β) (taken : Bool) (x : α) (l : List α) :
    (((x :: l).filterMap request).length - if taken then 0 else 1) =
      (if taken && (request x).isSome then 1 else 0) +
        ((l.filterMap request).length - if taken || (request x).isSome then 0 else 1) := by
  cases hx : request x with
  | none => simp [hx]
  | some r => cases taken <;> simp [hx, Nat.add_comm]

/-- The scan drops every request of a class but the first, and every one if the slot is taken. -/
theorem conflictLog_length (layerTaken modeTaken : Bool) (l : List (Nat × MapWord)) :
    (Spec.conflictLog layerTaken modeTaken l).length =
      ((l.filterMap fun cm => Spec.layerReqOf cm.2).length - if layerTaken then 0 else 1) +
        ((l.filterMap fun cm => Spec.modeReqOf cm.2).length - if modeTaken then 0 else 1) := by
  induction l generalizing layerTaken modeTaken with
  | nil => simp [Spec.conflictLog]
  | cons cm l ih =>
    rw [laterRequests_cons, laterRequests_cons]
    simp only [Spec.conflictLog, List.length_append, ih, apply_ite List.length, List.length_singleton,
      List.length_nil]
    omega

theorem conflicts_length (s : State) : (Spec.conflicts s).length =
    ((Spec.layerRequests s).length - 1) + ((Spec.modeRequests s).length - 1) := by
  rw [← storedScan_layerRequests, ← storedScan_modeRequests]
  exact conflictLog_length false false (storedScan s)

theorem conflicts_event (s : State) : ∀ e ∈ Spec.conflicts s, e.event = .stateConflict := conflictLog_event _ _ _

theorem conflicts_length_le (s : State) : (Spec.conflicts s).length ≤ 2 * (s.cfg.nKeys + 2) := by
  have hlayer : (Spec.layerRequests s).length ≤ (actuated s).length := List.length_filterMap_le _ _
  have hmode : (Spec.modeRequests s).length ≤ (actuated s).length := List.length_filterMap_le _ _
  have hact := actuated_length s
  rw [conflicts_length]
  omega

/-- A word that is fed gives at most one diagnostic of each class. -/
theorem dropLog_length_le (room : Nat) (taken : Bool) (ws : List MapWord) :
    (Spec.dropLog room taken ws).length ≤ 2 * ws.length := by
  induction ws generalizing room taken with
  | nil => simp [Spec.dropLog]
  | cons m ws ih =>
    have hkey : (Spec.keycodes [m]).length ≤ 1 := List.length_filterMap_le _ _
    have hcons : (Spec.consCodes [m]).length ≤ 1 := List.length_filterMap_le _ _
    have hrest := ih (room - (Spec.keycodes [m]).length) (taken || !(Spec.consCodes [m]).isEmpty)
    simp only [Spec.dropLog, List.length_append, List.length_cons]
    split <;> split <;> simp <;> omega

theorem drops_length_le (s : State) : (Spec.drops s).length ≤ 2 * (s.cfg.nKeys + 6) :=
  (dropLog_length_le _ _ _).trans (Nat.mul_le_mul_left 2 (fedNow_length s))

/-- The diagnostic registers after a frame: those of the scan, then those of pass 2, which a halt cuts off. -/
theorem kframe_diag (s : State) : ∃ dropped,
    (kframe s).state.diag = (clearedDiag s).emits (Spec.conflicts s ++ dropped) ∧
      (Spec.ModeHandled s → dropped = Spec.drops s) ∧ (¬ Spec.ModeHandled s → dropped = []) := by
  rcases modeHandled_or s with hm | ⟨v, hv, h0⟩
  · exact ⟨Spec.drops s, by rw [kframe_handled hm]; rfl, fun _ => rfl, fun hn => absurd hm hn⟩
  · have hn : ¬ Spec.ModeHandled s := (not_modeHandled_iff s).2 ⟨v, hv, h0⟩
    exact ⟨[], by rw [kframe_unhandled hv h0, List.append_nil]; rfl, fun hm => absurd hm hn, fun _ => rfl⟩

/-- From cleared counters fewer than 65536 diagnostics are counted exactly (10_state R47; log 19). -/
theorem clearedDiag_emits_toNat (s : State) {l : List DiagEntry} (h : l.length < 65536) :
    ((clearedDiag s).emits l).ovf.toNat = (Spec.ofEvent .kcOverflow l).length ∧
      ((clearedDiag s).emits l).conflict.toNat = (Spec.ofEvent .stateConflict l).length ∧
      ((clearedDiag s).emits l).cons.toNat = (Spec.ofEvent .consConflict l).length := by
  have hcount : ∀ e, (0 + BitVec.ofNat 16 (Spec.ofEvent e l).length).toNat = (Spec.ofEvent e l).length := fun e => by
    have hle : (Spec.ofEvent e l).length ≤ l.length := List.length_filter_le _ _
    rw [zero_add, BitVec.toNat_ofNat]
    omega
  obtain ⟨hovf, hconflict, hcons⟩ := (clearedDiag s).emits_counters l
  rw [hovf, hconflict, hcons]
  exact ⟨hcount _, hcount _, hcount _⟩

/-- The log and the counters after a frame. Pass 2 emits no `STATE_CONFLICT`, so each pass has its own counters. -/
theorem kframe_log_counters {s : State} (hw : s.cfg.wf = true) : ∃ dropped,
    (kframe s).state.diag.log = s.diag.log ++ Spec.conflicts s ++ dropped ∧
      Spec.ofEvent .stateConflict dropped = [] ∧
      (kframe s).state.diag.conflict.toNat = (Spec.conflicts s).length ∧
      (kframe s).state.diag.ovf.toNat = (Spec.ofEvent .kcOverflow dropped).length ∧
      (kframe s).state.diag.cons.toNat = (Spec.ofEvent .consConflict dropped).length ∧
      (Spec.ModeHandled s → dropped = Spec.drops s) ∧ (¬ Spec.ModeHandled s → dropped = []) := by
  obtain ⟨dropped, hdiag, hdrops, hnone⟩ := kframe_diag s
  obtain ⟨hstate, hlen⟩ :
      Spec.ofEvent .stateConflict dropped = [] ∧ dropped.length ≤ 2 * (s.cfg.nKeys + 6) := by
    by_cases hm : Spec.ModeHandled s
    · obtain ⟨-, -, hnoConflict⟩ := dropLog_ofEvent s.cfg.kcCap false (Spec.fedNow s)
      rw [hdrops hm]
      exact ⟨hnoConflict, drops_length_le s⟩
    · rw [hnone hm]
      exact ⟨rfl, Nat.zero_le _⟩
  have hkeys := wf_nKeys hw
  have hconf := conflicts_length_le s
  obtain ⟨hovf, hconflict, hcons⟩ := clearedDiag_emits_toNat s (l := Spec.conflicts s ++ dropped)
    (by rw [List.length_append]; omega)
  have hevent := conflicts_event s
  refine ⟨dropped, ?_, hstate, ?_, ?_, ?_, hdrops, hnone⟩
  · simp [hdiag, clearedDiag]
  · rw [hdiag, hconflict, Spec_ofEvent_append, Spec_ofEvent_all hevent, hstate, List.append_nil]
  · rw [hdiag, hovf, Spec_ofEvent_append, Spec_ofEvent_none hevent (by decide), List.nil_append]
  · rw [hdiag, hcons, Spec_ofEvent_append, Spec_ofEvent_none hevent (by decide), List.nil_append]

/-- Settles O35. -/
theorem kframeDiagnostics : Obligations.KframeDiagnostics := by
  unfold Obligations.KframeDiagnostics
  intro s hw
  obtain ⟨dropped, hlog, hstate, hconflict, hovf, hcons, hdrops, hnone⟩ := kframe_log_counters hw
  refine ⟨_, dropped, execKframe_wf hw, hlog, conflicts_event s, hstate, hconflict, hovf, hcons, fun hm => ?_, hnone⟩
  obtain ⟨hkeys, hcodes, -⟩ := dropLog_ofEvent s.cfg.kcCap false (Spec.fedNow s)
  rw [hdrops hm]
  exact ⟨rfl, hkeys, hcodes⟩

/-- Settles O36: each class has one slot (`conflictLog_length`). -/
theorem conflictsCountLaterRequests : Obligations.ConflictsCountLaterRequests := by
  unfold Obligations.ConflictsCountLaterRequests
  intro s hw
  obtain ⟨dropped, hlog, hstate, hconflict, -⟩ := kframe_log_counters hw
  refine ⟨_, Spec.conflicts s ++ dropped, execKframe_wf hw, by rw [hlog, List.append_assoc], ?_, ?_⟩
  · rw [hconflict, conflicts_length]
  · rw [Spec_ofEvent_append, Spec_ofEvent_all (conflicts_event s), hstate, List.append_nil, conflicts_length]

/-! ### The report (42_keymap_frame R195 to R197) -/

theorem kframe_report_of_handled {s : State} (hm : Spec.ModeHandled s) :
    (kframe s).state.report = frameReport s := by
  rw [kframe_handled hm]
  rfl

/-- The slots: the keycodes that the accumulator keeps, and no-event in the rest. -/
theorem padKeys_take (cap : Nat) (ks : List Byte) :
    padKeys cap (ks.take cap) = ks.take cap ++ List.replicate (cap - ks.length) 0 := by
  have hfree : cap - (ks.take cap).length = cap - ks.length := by
    rw [List.length_take]
    omega
  rw [padKeys_eq (List.length_take_le _ _), hfree]

theorem orMouse_zero_bit (ws : List MapWord) {b : BitVec 2} (hb : b ≠ 3) :
    (orMouse ws 0).getLsbD b.toNat = Spec.hasMouse ws b := by
  have hzero : (0 : BitVec 3).getLsbD b.toNat = false := BitVec.getLsbD_zero
  rw [orMouse_bit ws 0 b hb, hzero, Bool.false_or]

/-- Settles O37: each register of the packed report. -/
theorem kframeReport : Obligations.KframeReport := by
  unfold Obligations.KframeReport
  intro s hw hm
  refine ⟨_, execKframe_wf hw, ?_⟩
  rw [kframe_report_of_handled hm, kframe_keymap]
  exact ⟨padKeys_take _ _, fun _ => orMouse_zero_bit _, rfl, rfl, ofInt_wheelStep _ _ _,
    position_toInt _ (centreX_range s), position_toInt _ (centreY_range s), rfl⟩

/-- Settles O39: the mode request is not `MODE(0)`, so `WASD` is as before; pass 2 has fed nothing. -/
theorem haltingKframeKeepsReport : Obligations.HaltingKframeKeepsReport := by
  unfold Obligations.HaltingKframeKeepsReport
  intro s v hw hv h0
  have hn : ¬ Spec.ModeHandled s := (not_modeHandled_iff s).2 ⟨v, hv, h0⟩
  have hkeymap : (kframe s).state.keymap = { Spec.newKeymap s with wasd := s.keymap.wasd } := by
    rw [kframe_unhandled hv h0]
    rfl
  obtain ⟨dropped, hlog, -, hconflict, hovf, hcons, -, hnone⟩ := kframe_log_counters hw
  rw [hnone hn] at hlog hovf hcons
  exact ⟨_, execKframe_wf hw, kframe_halt_of_not_handled hv h0, kframe_report_of_not_handled hn, hkeymap,
    by rw [hlog, List.append_nil], BitVec.eq_of_toNat_eq hovf, BitVec.eq_of_toNat_eq hcons, hconflict⟩

/-! ### What a frame does not write (42_keymap_frame R170), and `FRAME` (R198) -/

/-- Settles O40: a frame is one update of KeymapState, the report, the diagnostics, the halt registers and the
transients (`kframe_state`). -/
theorem kframeLeavesLedUnitAlone : Obligations.KframeLeavesLedUnitAlone := by
  unfold Obligations.KframeLeavesLedUnitAlone
  intro s hw
  have hbytes : ∀ i k, ledByte (kframe s).state i k = ledByte s i k := ledByte_congr (kframe_cfg s) (kframe_ledbuf s)
  obtain ⟨k, r, d, h, hstate⟩ := kframe_state s
  refine ⟨_, execKframe_wf hw, kframe_cfg s, kframe_lookup s, kframe_ledbuf s, hbytes, ?_, kframe_wire s, ?_, ?_,
    kframe_frame s⟩
  all_goals simp [hstate]

/-- Settles O43: the two ways a `FRAME` ends (`frame_cases`). -/
theorem frameIsKframeThenLshow : Obligations.FrameIsKframeThenLshow := by
  unfold Obligations.FrameIsKframeThenLshow
  intro s hw hr
  rcases frame_cases hw with ⟨hm, hframe⟩ | ⟨hn, hframe⟩
  · have hrun : Running (kframe s).state := by rwa [Running, kframe_halt_of_handled hm]
    exact ⟨fun _ => ⟨_, _, execKframe_wf hw, hrun, exec_lshow _, hframe⟩, fun hn => absurd hm hn⟩
  · obtain ⟨v, hv, h0⟩ := (not_modeHandled_iff s).1 hn
    have hhalted : ¬ Running (kframe s).state := by simp [Running, kframe_halt_of_not_handled hv h0]
    exact ⟨fun hm => absurd hm hn, fun _ => ⟨_, execKframe_wf hw, hhalted, hframe, kframe_wire s⟩⟩

/-! ### What a frame does not read (42_keymap_frame R177; log 6) -/

/-- `s` with the levels `v` on the control pins. -/
def withAct (v : BitVec 254) (s : State) : State := { s with pins := { s.pins with act := v } }

section
variable {s : State} {v : BitVec 254} (h : ∀ c, c < s.cfg.nKeys + 2 → v.getLsbD c = s.pins.act.getLsbD c)
include h

/-- The one place where a frame reads `act` is the scan. -/
theorem actuated_withAct : actuated (withAct v s) = actuated s :=
  List.filter_congr fun c hc => h c (mem_scanOrder.1 hc)

theorem layerRequests_withAct : Spec.layerRequests (withAct v s) = Spec.layerRequests s := by
  rw [Spec.layerRequests, actuated_withAct h]
  rfl

theorem modeRequests_withAct : Spec.modeRequests (withAct v s) = Spec.modeRequests s := by
  rw [Spec.modeRequests, actuated_withAct h]
  rfl

theorem newKeymap_withAct : Spec.newKeymap (withAct v s) = Spec.newKeymap s := by
  rw [Spec.newKeymap, layerRequests_withAct h, modeRequests_withAct h]
  rfl

theorem conflicts_withAct : Spec.conflicts (withAct v s) = Spec.conflicts s := by
  rw [Spec.conflicts, actuated_withAct h]
  rfl

theorem fedNow_withAct : Spec.fedNow (withAct v s) = Spec.fedNow s := by
  rw [Spec.fedNow, Spec.fed, newKeymap_withAct h, actuated_withAct h]
  rfl

theorem drops_withAct : Spec.drops (withAct v s) = Spec.drops s := by
  rw [Spec.drops, fedNow_withAct h]
  rfl

theorem frameReport_withAct : frameReport (withAct v s) = frameReport s := by
  rw [frameReport, fedNow_withAct h, newKeymap_withAct h]
  rfl

theorem kframe_withAct : (kframe (withAct v s)).state = withAct v (kframe s).state := by
  rcases modeHandled_or s with hm | ⟨w, hw, h0⟩
  · have hm' : Spec.ModeHandled (withAct v s) := by rwa [Spec.ModeHandled, modeRequests_withAct h]
    rw [kframe_handled hm, kframe_handled hm', newKeymap_withAct h, frameReport_withAct h, conflicts_withAct h,
      drops_withAct h]
    rfl
  · have hw' : (Spec.modeRequests (withAct v s)).head? = some w := by rw [modeRequests_withAct h, hw]
    rw [kframe_unhandled hw h0, kframe_unhandled hw' h0, newKeymap_withAct h, conflicts_withAct h]
    rfl

end

/-- Settles O56. -/
theorem unscannedBitsHaveNoEffect : Obligations.UnscannedBitsHaveNoEffect := by
  unfold Obligations.UnscannedBitsHaveNoEffect
  intro s v hw hscan
  exact ⟨_, execKframe_wf hw,
    (execKframe_wf (s := withAct v s) hw).trans (congrArg Host.Outcome.next (kframe_withAct hscan))⟩

end Sys2Proof.Machine

-- Proofs of the exceptions family (60_exceptions): the halted block, the idle block, what each command can raise, and
-- the overflow of the keycode array.

namespace Sys2Proof.Machine

/-! ### The halted and the idle block (60_exceptions R222, R223, R235) -/

theorem step_eq_takeInput {s : State} (hw : s.cfg.wf = true) : step s = takeInput s := if_pos hw

/-- Reset is the one input that a halted block takes (60_exceptions R222). -/
theorem takeInput_halted {s : State} (hh : s.halt.halted = true) (hin : s.inbox.head? ≠ some .reset) :
    takeInput s = .fault .halted := by
  unfold takeInput
  split
  next rest hreset => exact absurd (congrArg List.head? hreset) hin
  next => exact if_pos hh
  next => exact if_pos hh
  next => exact if_pos hh

theorem takeInput_idle {s : State} (hr : Running s) (hin : s.inbox = []) : takeInput s = .next s := by
  have hrun : s.halt.halted = false := hr
  simp [takeInput, hin, hrun]

/-- Settles O7: the fault `halted` is how the model says that there is no step (log 5). -/
theorem haltedBlockHasNoStep : Obligations.HaltedBlockHasNoStep := by
  unfold Obligations.HaltedBlockHasNoStep
  intro s hw hh hin
  exact ⟨by simp [cmdReady, hh], (step_eq_takeInput hw).trans (takeInput_halted hh hin)⟩

/-- Settles O8: every other way to make a step needs a running block (`step_next`). -/
theorem onlyResetLeavesHalt : Obligations.OnlyResetLeavesHalt := by
  unfold Obligations.OnlyResetLeavesHalt
  intro s t hh h
  obtain ⟨-, ⟨rest, hin, rfl⟩ | ⟨hrun, -⟩⟩ := step_next h
  · exact ⟨rest, hin, rfl, rfl⟩
  · exact absurd (hh.symm.trans hrun) (by decide)

/-- Settles O14: that idling is a step is the model's choice (log 4). -/
theorem idleBlockHoldsState : Obligations.IdleBlockHoldsState := by
  unfold Obligations.IdleBlockHoldsState
  intro s hw hr hin
  exact (step_eq_takeInput hw).trans (takeInput_idle hr hin)

/-! ### What each command can raise (60_exceptions R212) -/

section
variable {s t : State}

/-- A running block's step on a command word is that word's acceptance. -/
theorem acceptCommand_of_step {w : CmdWord} {p : Pins} {rest : List Input} (hr : Running s)
    (hin : Spec.Commanded s w p rest) (h : step s = .next t) :
    acceptCommand w ((s.setPins p).setInbox rest) = .next t := by
  obtain ⟨hw, -⟩ := step_next h
  exact (step_command hw hr hin).symm.trans h

/-- What a decoded command leaves of a running block is what its instruction leaves. -/
theorem ran_of_step {w : CmdWord} {p : Pins} {rest : List Input} {i : Instr} (hr : Running s)
    (hin : Spec.Commanded s w p rest) (h : step s = .next t) (hd : decodeCmd w = .ok i) :
    Ran (Spec.accepted s p rest) i t :=
  exec_next ((acceptCommand_of_decode hd _).symm.trans (acceptCommand_of_step hr hin h))

theorem lset_events {idx r g b : Byte} (hr : Running s) (h : Ran s (.lset idx r g b) t) :
    t.diag = s.diag ∧ (¬ Running t → t.halt.code = 4) := by
  cases h with
  | lset => exact ⟨rfl, fun hn => absurd hr hn⟩
  | lsetOut => exact ⟨rfl, fun _ => rfl⟩

theorem lshow_events (hr : Running s) (h : Ran s .lshow t) : t.diag = s.diag ∧ Running t := by
  cases h
  rw [transmit_eq]
  exact ⟨rfl, hr⟩

theorem klook_events {sel : Table} {ctl : Byte} {layer : LayerIx} (hr : Running s)
    (h : Ran s (.klook sel ctl layer) t) : t.diag = s.diag ∧ (¬ Running t → t.halt.code = 7) := by
  cases h with
  | klook => exact ⟨rfl, fun hn => absurd hr hn⟩
  | klookOut => exact ⟨rfl, fun _ => rfl⟩

/-- A frame halts a running block only for a mode request without a handler (42_keymap_frame R181). -/
theorem kframe_halt_code (hr : Running s) (hn : ¬ Running (kframe s).state) : (kframe s).state.halt.code = 3 := by
  rcases modeHandled_or s with hm | ⟨v, hv, h0⟩
  · exact absurd (by rwa [Running, kframe_halt_of_handled hm]) hn
  · rw [kframe_halt_of_not_handled hv h0]

theorem transmit_halt (s : State) : (transmit s).halt = s.halt := by simp [transmit_eq]

theorem frame_halt_code {i : Instr} (hi : i = .kframe ∨ i = .frame) (hr : Running s) (h : Ran s i t)
    (hn : ¬ Running t) : t.halt.code = 3 := by
  obtain rfl | rfl := hi
  · cases h
    exact kframe_halt_code hr hn
  · cases h with
    | frame _ hm => exact absurd (by rwa [Running, transmit_halt, kframe_halt_of_handled hm]) hn
    | frameHalts => exact kframe_halt_code hr hn

end

/-- Settles O44, command by command; a rejected word is raised at its acceptance (60_exceptions R215). -/
theorem eventsOfEachCommand : Obligations.EventsOfEachCommand := by
  unfold Obligations.EventsOfEachCommand
  intro s t w p rest hr hin h
  have hran : ∀ {i}, decodeCmd w = .ok i → Ran (Spec.accepted s p rest) i t := ran_of_step hr hin h
  have hrun : Running (Spec.accepted s p rest) := hr
  refine ⟨fun idx r g b hd => lset_events (s := Spec.accepted s p rest) hrun (hran hd),
    fun hd => lshow_events (s := Spec.accepted s p rest) hrun (hran hd), ?frame,
    fun sel ctl layer hd => klook_events (s := Spec.accepted s p rest) hrun (hran hd), ?illegal⟩
  case frame =>
    rintro (hd | hd)
    · exact frame_halt_code (.inl rfl) hrun (hran hd)
    · exact frame_halt_code (.inr rfl) hrun (hran hd)
  case illegal =>
    rintro ⟨e, hd⟩
    cases (acceptCommand_of_error hd _).symm.trans (acceptCommand_of_step hr hin h)
    exact ⟨rfl, by simp [Running, raiseFatal_eq], rfl⟩

/-! ### The capacity of the keycode array (95_test_vectors S4; 41_keymap_lookup R151) -/

/-- When at least `KC_CAP` keycodes are fed no slot is left over for padding. -/
theorem kframe_keys_full {s : State} (hm : Spec.ModeHandled s)
    (h : s.cfg.kcCap ≤ (Spec.keycodes (Spec.fedNow s)).length) :
    (kframe s).state.report.keys = (Spec.keycodes (Spec.fedNow s)).take s.cfg.kcCap := by
  rw [kframe_report_of_handled hm, frameReport, padKeys_take, Nat.sub_eq_zero_of_le h, List.replicate_zero,
    List.append_nil]

/-- A completed frame counts one overflow for each keycode beyond the capacity. -/
theorem kframe_ovf {s : State} (hw : s.cfg.wf = true) (hm : Spec.ModeHandled s) :
    (kframe s).state.diag.ovf.toNat = (Spec.keycodes (Spec.fedNow s)).length - s.cfg.kcCap := by
  obtain ⟨dropped, -, -, -, hovf, -, hdrops, -⟩ := kframe_log_counters hw
  obtain ⟨hkeys, -⟩ := dropLog_ofEvent s.cfg.kcCap false (Spec.fedNow s)
  rw [hovf, hdrops hm, Spec.drops, hkeys, List.length_map, List.length_drop]

/-- Settles O38: the slots hold the first keycodes (`kframe_keys_full`), the others are counted (`kframe_ovf`). -/
theorem overflowKeepsTheFirstKeycodes : Obligations.OverflowKeepsTheFirstKeycodes := by
  unfold Obligations.OverflowKeepsTheFirstKeycodes
  intro s n hw hm hlen
  have hkeys := kframe_keys_full hm (by omega)
  have hovf := kframe_ovf hw hm
  refine ⟨_, execKframe_wf hw, hkeys, ?_, fun k hk => ?_, by omega⟩
  · rw [hkeys, List.length_take]
    omega
  · rw [hkeys] at hk
    exact keycodes_ne_zero (List.mem_of_mem_take hk)

end Sys2Proof.Machine

-- Proofs of the reset and hazards family (70_reset_and_hazards): reset, the first command after it, and the mode toggle
-- that is held.

namespace Sys2Proof.Machine

/-! ### Two frames on the same pins (70_reset_and_hazards R250, R251) -/

section
variable {s t : State}

/-- What pass 1 reads: the configuration, the pins and the stored layer (42_keymap_frame R176 to R178). -/
def SameScan (s t : State) : Prop := t.cfg = s.cfg ∧ t.pins = s.pins ∧ t.keymap.sto = s.keymap.sto

theorem storedScan_congr (h : SameScan s t) : storedScan t = storedScan s := by
  obtain ⟨hcfg, hpins, hsto⟩ := h
  simp only [storedScan, actuated, Spec.storedWord, hcfg, hpins, hsto]

theorem layerRequests_congr (h : SameScan s t) : Spec.layerRequests t = Spec.layerRequests s := by
  rw [← storedScan_layerRequests, ← storedScan_layerRequests, storedScan_congr h]

theorem modeRequests_congr (h : SameScan s t) : Spec.modeRequests t = Spec.modeRequests s := by
  rw [← storedScan_modeRequests, ← storedScan_modeRequests, storedScan_congr h]

end

section
variable {s : State}

@[simp] theorem kframe_pins (s : State) : (kframe s).state.pins = s.pins := by
  obtain ⟨k, r, d, h, e⟩ := kframe_state s
  simp [e]

/-- Only an `ST` moves the stored layer (42_keymap_frame R183). -/
theorem newKeymap_sto_of_no_st (h : ∀ n, (Spec.layerRequests s).head? ≠ some (.st n)) :
    (Spec.newKeymap s).sto = s.keymap.sto := by
  simp only [Spec.newKeymap]
  cases hreq : (Spec.layerRequests s).head? with
  | none => rfl
  | some r =>
    cases r with
    | mo n => rfl
    | st n => exact absurd hreq (h n)

theorem newKeymap_cur_of_mo {n : LayerIx} (h : (Spec.layerRequests s).head? = some (.mo n)) :
    (Spec.newKeymap s).cur = n := by
  simp only [Spec.newKeymap, h]

theorem newKeymap_wasd_of_toggle (h : (Spec.modeRequests s).head? = some 0) :
    (Spec.newKeymap s).wasd = !s.keymap.wasd := if_pos h

/-- The next frame scans the same words: a momentary layer is not where pass 1 looks (70_reset_and_hazards R251). -/
theorem sameScan_kframe (h : ∀ n, (Spec.layerRequests s).head? ≠ some (.st n)) : SameScan s (kframe s).state :=
  ⟨kframe_cfg s, kframe_pins s, by rw [kframe_keymap, newKeymap_sto_of_no_st h]⟩

theorem newKeymap_of_toggle (hst : ∀ n, (Spec.layerRequests s).head? ≠ some (.st n))
    (hmode : (Spec.modeRequests s).head? = some 0) : Spec.newKeymap s =
      { s.keymap with cur := (Spec.newKeymap s).cur, wasd := !s.keymap.wasd, prevA := s.pins.rotA } := by
  have hsto := newKeymap_sto_of_no_st hst
  have hwasd := newKeymap_wasd_of_toggle hmode
  calc Spec.newKeymap s
      = ⟨(Spec.newKeymap s).cur, (Spec.newKeymap s).sto, (Spec.newKeymap s).wasd, s.pins.rotA⟩ := rfl
    _ = _ := by rw [hsto, hwasd]

/-- The toggle is still the first mode request, so it acts again, and the layer request leads to the same layers. -/
theorem newKeymap_again_of_toggle (hst : ∀ n, (Spec.layerRequests s).head? ≠ some (.st n))
    (hmode : (Spec.modeRequests s).head? = some 0) :
    Spec.newKeymap (kframe s).state = { Spec.newKeymap s with wasd := s.keymap.wasd } := by
  have hscan := sameScan_kframe hst
  have hlayer := layerRequests_congr hscan
  have hmode' := modeRequests_congr hscan
  obtain ⟨-, hpins, hsto⟩ := hscan
  have hwasd : (kframe s).state.keymap.wasd = !s.keymap.wasd := by
    rw [kframe_keymap, newKeymap_wasd_of_toggle hmode]
  simp only [Spec.newKeymap, hlayer, hmode', hmode, hpins, hsto, hwasd, if_true, Bool.not_not]

end

/-- Settles O34: the first frame leaves what pass 1 reads (`sameScan_kframe`), so the second toggles again. -/
theorem heldToggleActsEveryFrame : Obligations.HeldToggleActsEveryFrame := by
  unfold Obligations.HeldToggleActsEveryFrame
  intro s hw hst hmode
  have hw' : (kframe s).state.cfg.wf = true := by rwa [kframe_cfg]
  refine ⟨_, _, execKframe_wf hw, execKframe_wf hw', ?_, ?_, fun hnone => ?_, fun n hmo => ?_⟩
  · rw [kframe_keymap]
    exact newKeymap_of_toggle hst hmode
  · rw [kframe_keymap, newKeymap_again_of_toggle hst hmode, kframe_keymap]
  · rw [kframe_keymap]
    exact (newKeymap_layers_of_no_request hnone).1
  · rw [kframe_keymap]
    exact newKeymap_cur_of_mo hmo

/-! ### Reset and the first command (70_reset_and_hazards R240 to R243) -/

/-- Reset is taken whatever the halt registers hold. -/
theorem takeInput_reset {s : State} {rest : List Input} (hin : s.inbox = .reset :: rest) :
    takeInput s = .next (takeReset (s.setInbox rest)) := by
  simp only [takeInput, hin]

/-- Settles O10: what reset keeps, the configuration and the inputs (log 12), is `takeReset_eq`. -/
theorem resetClearsEverything : Obligations.ResetClearsEverything := by
  unfold Obligations.ResetClearsEverything
  intro s rest hw hin
  rw [step_eq_takeInput hw, takeInput_reset hin, takeReset_eq]
  rfl

/-- A running block makes a step on every command word: a legal one is executed, an illegal one raises event 7. -/
theorem step_command_next {s : State} {w : CmdWord} {p : Pins} {rest : List Input} (hw : s.cfg.wf = true)
    (hr : Running s) (hin : Spec.Commanded s w p rest) : ∃ t, step s = .next t := by
  rw [step_command hw hr hin]
  cases hd : decodeCmd w with
  | ok i =>
    rw [acceptCommand_of_decode hd]
    exact exec_command_next hd hw
  | error e => exact ⟨_, acceptCommand_of_error hd _⟩

/-- Settles O11: the block runs after reset, so the first command makes a step (`step_command_next`). -/
theorem anyCommandMayBeFirst : Obligations.AnyCommandMayBeFirst := by
  unfold Obligations.AnyCommandMayBeFirst
  intro c w p hw
  obtain ⟨t, ht⟩ := step_command_next (s := { State.resetOf c with inbox := [.command w p] }) hw rfl rfl
  exact ⟨rfl, t, ht, configurationNeverChanges _ _ ht⟩

end Sys2Proof.Machine
